-- ==== Sys2Proof/Word.lean ====
section
/-! DEFINITION. The value types of the block: a byte, a 16-bit field, and the sparse contents of a bank. -/

namespace Sys2Proof

/-- A byte: unit ids, function codes, byte counts, frame bytes and STATUS (00_scope.md R11, 10_state.md R23). -/
abbrev Byte := BitVec 8

/-- A 16-bit field: addresses, quantities, register elements, the CRC and the MBAP ids (00_scope.md R11). -/
abbrev Half := BitVec 16

/-- The contents of a bank, or of INIT, written as the (index, value) pairs that differ from what an
unlisted index holds, indices strictly rising. -/
abbrev Cells (α : Type) := List (Nat × α)

end Sys2Proof
end

