-- ==== Sys2Proof/Syntax.lean ====
section
/-! DEFINITION. What an agent can ask of the block: agents, bank selectors, the command interface, and the one
inductive `Instr` with a constructor for each row of spec/opcode_table.json. -/

namespace Sys2Proof

/-- The agents: the host port H and the server ports S_p (10_state.md R20). Which ports exist is NUM_SRV's matter. -/
inductive Agent where
  | host
  | srv (p : Nat)
  deriving DecidableEq, Repr

/-- The banks whose element is one bit (10_state.md R24). -/
inductive BitBank where
  | coil
  | disc
  deriving DecidableEq, Repr

/-- The banks whose element is a 16-bit register (10_state.md R24). -/
inductive RegBank where
  | hold
  | inpt
  deriving DecidableEq, Repr

/-- The four banks (10_state.md R24). -/
inductive Bank where
  | bit (b : BitBank)
  | reg (b : RegBank)
  deriving DecidableEq, Repr

/-- An element together with the bank it belongs to: one bit for COIL and DISC, 16 bits for HOLD and INPT
(10_state.md R24, 30_encoding.md R102). -/
inductive Element where
  | bit (b : BitBank) (v : Bool)
  | reg (b : RegBank) (v : Half)
  deriving DecidableEq, Repr

/-- The bank an element belongs to. -/
def Element.bank : Element → Bank
  | .bit b _ => .bit b
  | .reg b _ => .reg b

/-- One command as an agent presents it: the OP selector and the operand lines of 30_encoding.md R100, each of the
width of R102. An operation reads the lines of its own operands only. -/
structure Command where
  /-- the 8-bit OP selector -/
  op : Byte
  /-- CRC.UPDATE's data byte -/
  d : Byte := 0
  unit : Byte := 0
  fc : Byte := 0
  addr : Half := 0
  /-- RTU.ENC's quantity or value -/
  qv : Half := 0
  /-- UNPACK.COILS's count -/
  n : Half := 0
  /-- the 2-bit bank selector -/
  b : BitVec 2 := 0
  /-- the element index -/
  i : Half := 0
  /-- STORE.SET's element for COIL and DISC -/
  vBit : Bool := false
  /-- STORE.SET's element for HOLD and INPT -/
  vReg : Half := 0
  /-- the byte sequence operand named s, f, p or q in R100 -/
  bytes : List Byte := []
  /-- MBAP.ENC's payload P -/
  payload : List Byte := []
  bits : List Bool := []
  regs : List Half := []
  deriving DecidableEq, Repr

/-- The header fields of an MBAP request that select nothing (30_encoding.md R85): transaction id, protocol id,
length and unit id. -/
structure MbapHeader where
  txn : Half
  proto : Half
  len : Half
  unit : Byte
  deriving DecidableEq, Repr

/-- The operations. The first twenty constructors are the OP rows of 30_encoding.md R100; the last eight are the
function-code rows of R93: an SRV.TX whose request frame has at least 12 bytes and a legal function code, written
as its fields: header, the address field, the quantity-or-value field, and the bytes from offset 12 on. -/
inductive Instr where
  | crcInit
  | crcUpdate (d : Byte)
  | crcRead
  | crcCompute (s : List Byte)
  | crcAppend (s : List Byte)
  | crcCheck (f : List Byte)
  | rtuEnc (unit fc : Byte) (addr qv : Half)
  | rtuEncwc (unit : Byte) (addr : Half) (x : List Bool)
  | rtuEncwr (unit : Byte) (addr : Half) (x : List Half)
  | rtuDec (f : List Byte)
  | packCoils (x : List Bool)
  | unpackCoils (p : List Byte) (n : Half)
  | packRegs (x : List Half)
  | unpackRegs (p : List Byte)
  | mbapDec (q : List Byte)
  | mbapEnc (q : List Byte) (fc : Byte) (p : List Byte)
  | mbapErr (q : List Byte) (fc : Byte)
  | storeGet (b : Bank) (i : Half)
  | storeSet (i : Half) (v : Element)
  | srvTx (q : List Byte)
  | readCoils (h : MbapHeader) (addr qty : Half) (rest : List Byte)
  | readDiscreteInputs (h : MbapHeader) (addr qty : Half) (rest : List Byte)
  | readHoldingRegisters (h : MbapHeader) (addr qty : Half) (rest : List Byte)
  | readInputRegisters (h : MbapHeader) (addr qty : Half) (rest : List Byte)
  | writeSingleCoil (h : MbapHeader) (addr value : Half) (rest : List Byte)
  | writeSingleRegister (h : MbapHeader) (addr value : Half) (rest : List Byte)
  | writeMultipleCoils (h : MbapHeader) (addr qty : Half) (rest : List Byte)
  | writeMultipleRegisters (h : MbapHeader) (addr qty : Half) (rest : List Byte)
  deriving DecidableEq, Repr

/-- The pseudo-operations of the assembly syntax (30_encoding.md R105). -/
inductive Pseudo where
  | rdCoils (unit : Byte) (addr qty : Half)
  | rdDisc (unit : Byte) (addr qty : Half)
  | rdHold (unit : Byte) (addr qty : Half)
  | rdInpt (unit : Byte) (addr qty : Half)
  | wrCoil (unit : Byte) (addr : Half) (on : Bool)
  | wrReg (unit : Byte) (addr v : Half)
  | wrCoils (unit : Byte) (addr : Half) (x : List Bool)
  | wrRegs (unit : Byte) (addr : Half) (x : List Half)
  deriving DecidableEq, Repr

end Sys2Proof
end

