-- ==== Sys2Proof/Config.lean ====
section
/-! DEFINITION. The configuration of one block: the parameters CAP, INIT and NUM_SRV (00_scope.md R8–R10,
10_state.md R26). It is plain data, so it can stand beside the registers in State and every statement over all
states is a statement over all configurations (log 5). No step changes it. -/

namespace Sys2Proof

/-- CAP, INIT and NUM_SRV. INIT[b] is written as the pairs (index, value) that differ from zero, which every
function on the indices below CAP[b] can be (log 6). -/
structure Config where
  capCoil : Nat
  capDisc : Nat
  capHold : Nat
  capInpt : Nat
  initCoil : Cells Bool
  initDisc : Cells Bool
  initHold : Cells Half
  initInpt : Cells Half
  numSrv : Nat
  deriving DecidableEq, Repr

/-- CAP[b] (00_scope.md R8). -/
def Config.cap (c : Config) : Bank → Nat
  | .bit .coil => c.capCoil
  | .bit .disc => c.capDisc
  | .reg .hold => c.capHold
  | .reg .inpt => c.capInpt

/-- INIT of a bit bank, as pairs. -/
def Config.initBits (c : Config) : BitBank → Cells Bool
  | .coil => c.initCoil
  | .disc => c.initDisc

/-- INIT of a register bank, as pairs. -/
def Config.initRegs (c : Config) : RegBank → Cells Half
  | .hold => c.initHold
  | .inpt => c.initInpt

/-- The configuration of `State.reset`. CAP = 10000 is the spec's default (R8). INIT = 0 (the premise of
95_test_vectors.md) and NUM_SRV = 2 are DESIGN CHOICE, unsafe where a statement rests on them (log 5); the
statements range over every configuration instead. -/
def Config.default : Config where
  capCoil := 10000
  capDisc := 10000
  capHold := 10000
  capInpt := 10000
  initCoil := []
  initDisc := []
  initHold := []
  initInpt := []
  numSrv := 2

end Sys2Proof
end

