-- ==== Sys2Proof/Machine/State.lean ====
section
/-! DEFINITION. The state of the block as plain data: everything 10_state.md R30 lists, the configuration beside it,
and the model's own fields for the environment's inputs and the last completion. -/

namespace Sys2Proof.Machine

/-- Why the machine stops. The spec has no machine fault (20_memory.md R68); the one fault here marks an input the
spec says cannot exist. -/
inductive Fault where
  /-- Raised by `step` alone: the next operation stands on a server port S_p with p ≥ NUM_SRV, a port that does not
  exist (10_state.md R20). SAFE: no such operation can be issued to the hardware (log 12). -/
  | noSuchAgent (a : Agent)
  deriving DecidableEq, Repr

/-- Why an instruction has no meaning. -/
inductive Refusal where
  /-- Raised by an arm of `exec` without a meaning yet. SAFE. No arm raises it: every row is modelled. -/
  | notModelled (mnemonic : String)
  deriving DecidableEq, Repr

/-- The error kinds (60_exceptions.md R240). -/
inductive ErrKind where
  | formatError
  | outOfRangeError
  | protocolError
  | crcError
  /-- Reserved: no operation raises it (60_exceptions.md R245). -/
  | timeoutError
  deriving DecidableEq, Repr

/-- The result values an operation returns with its completion (30_encoding.md R100). -/
inductive Result where
  | nothing
  | half (c : Half)
  | bytes (f : List Byte)
  | bits (x : List Bool)
  | regs (x : List Half)
  /-- MBAP.DEC's unit, fc, addr, qty -/
  | fields (unit fc : Byte) (addr qty : Half)
  | element (v : Element)
  /-- SRV.TX's optional response frame -/
  | response (r : Option (List Byte))
  deriving DecidableEq, Repr

/-- What an operation returns when it completes: who issued it, OK (none) or the error kind, and its result values
(10_state.md R21, R23). -/
structure Completion where
  agent : Agent
  error : Option ErrKind
  result : Result
  deriving DecidableEq, Repr

/-- What the outside world does to the block: an agent issues an operation (10_state.md R27), or the block is reset
between operations (70_reset_and_hazards.md R270). -/
inductive Input where
  | op (a : Agent) (c : Command)
  | reset
  deriving DecidableEq, Repr

/-- The data store: four banks (10_state.md R24), each as the elements that differ from INIT (log 7). -/
structure Memory where
  coil : Cells Bool
  disc : Cells Bool
  hold : Cells Half
  inpt : Cells Half
  deriving DecidableEq, Repr

/-- The state of the block. -/
structure State where
  /-- CAP, INIT and NUM_SRV (10_state.md R26): constants, changed by no step. -/
  cfg : Config
  /-- the CRC accumulator (10_state.md R22) -/
  crc : Half
  /-- STATUS[H] (10_state.md R23) -/
  statusH : Byte
  /-- STATUS[S_0], STATUS[S_1], … (10_state.md R23), NUM_SRV of them -/
  statusS : List Byte
  /-- the four banks (10_state.md R24) -/
  mem : Memory
  /-- the model's own: the inputs not yet taken, in the order they take effect (log 1) -/
  pending : List Input
  /-- the model's own: the agent whose operation is being taken (log 3) -/
  issuer : Agent
  /-- the model's own: what the last operation returned (log 2) -/
  completion : Option Completion
  deriving DecidableEq, Repr

/-- The outcome of a step of this machine. -/
abbrev Outcome := Host.Outcome State Fault Refusal

/-- The state after reset of a block with configuration `cfg` (70_reset_and_hazards.md R270). -/
def State.resetWith (cfg : Config) : State where
  cfg := cfg
  crc := 0xFFFF
  statusH := 0
  statusS := List.replicate cfg.numSrv 0
  mem := ⟨[], [], [], []⟩
  pending := []
  issuer := .host
  completion := none

/-- The state after reset of the default configuration (log 5). -/
def State.reset : State := State.resetWith Config.default

end Sys2Proof.Machine
end

