-- ==== Sys2Proof/Machine/Flags.lean ====
section
/-! DEFINITION. STATUS (10_state.md R23), the block's only flag-like register: its codes and its fields. -/

namespace Sys2Proof.Machine

/-- The ERR code of an error kind (10_state.md R23, 60_exceptions.md R240). -/
def errCode : ErrKind → Byte
  | .formatError => 1
  | .outOfRangeError => 2
  | .protocolError => 3
  | .crcError => 4
  | .timeoutError => 5

/-- The STATUS value an outcome writes: 0 for OK, the kind's code otherwise; bits [7:3] are 0. -/
def statusCode : Option ErrKind → Byte
  | none => 0
  | some k => errCode k

/-- STATUS.ERR, bits [2:0]. -/
def errField (st : Byte) : BitVec 3 := st.extractLsb' 0 3

/-- The reserved bits [7:3] of STATUS. -/
def statusReserved (st : Byte) : BitVec 5 := st.extractLsb' 3 5

end Sys2Proof.Machine
end

