-- ==== Sys2Proof/WellFormed.lean ====
section
/-! DEFINITION. Which terms of `Instr` stand for a command. The operand types already have the widths of
30_encoding.md R102, so one check remains: a request with 12 bytes or more and a legal function code is written as
its function-code instruction, not as `srvTx` (log 9). -/

namespace Sys2Proof

/-- The eight legal function codes (00_scope.md R3, 30_encoding.md R93). -/
def legalFunctionCodes : List Byte := [0x01, 0x02, 0x03, 0x04, 0x05, 0x06, 0x0F, 0x10]

/-- The frame holds the fixed fields of format TQ and a legal function code (30_encoding.md R85, R93). -/
def isFunctionRequest (q : List Byte) : Bool :=
  decide (12 ≤ q.length) && legalFunctionCodes.contains (q.getD 7 0)

/-- The well-formed instructions. -/
def Instr.wf : Instr → Bool
  | .srvTx q => !isFunctionRequest q
  | .crcInit => true
  | .crcUpdate _ => true
  | .crcRead => true
  | .crcCompute _ => true
  | .crcAppend _ => true
  | .crcCheck _ => true
  | .rtuEnc _ _ _ _ => true
  | .rtuEncwc _ _ _ => true
  | .rtuEncwr _ _ _ => true
  | .rtuDec _ => true
  | .packCoils _ => true
  | .unpackCoils _ _ => true
  | .packRegs _ => true
  | .unpackRegs _ => true
  | .mbapDec _ => true
  | .mbapEnc _ _ _ => true
  | .mbapErr _ _ => true
  | .storeGet _ _ => true
  | .storeSet _ _ => true
  | .readCoils _ _ _ _ => true
  | .readDiscreteInputs _ _ _ _ => true
  | .readHoldingRegisters _ _ _ _ => true
  | .readInputRegisters _ _ _ _ => true
  | .writeSingleCoil _ _ _ _ => true
  | .writeSingleRegister _ _ _ _ => true
  | .writeMultipleCoils _ _ _ _ => true
  | .writeMultipleRegisters _ _ _ _ => true

end Sys2Proof
end

