-- ==== Sys2Proof/Decode.lean ====
section
/-! DEFINITION. The decoder (an OP selector with its operand lines, and inside SRV.TX the MBAP request frame), total
and rejecting by name; the encoder; and the byte-order helpers both use. -/

namespace Sys2Proof

/-! ### Byte sequences and byte order (00_scope.md R14, 20_memory.md R53) -/

/-- `v[15:8]`. -/
def hi8 (v : Half) : Byte := v.extractLsb' 8 8

/-- `v[7:0]`. -/
def lo8 (v : Half) : Byte := v.extractLsb' 0 8

/-- Big-endian assembly `h × 256 + l`. -/
def be16 (h l : Byte) : Half := h ++ l

/-- `f[i]`; every use is guarded by `i < f.length`. -/
def byteAt (f : List Byte) (i : Nat) : Byte := f.getD i 0

/-- `f[i..j)`. -/
def slice (f : List Byte) (i j : Nat) : List Byte := (f.take j).drop i

/-! ### OP selectors (30_encoding.md R100) -/

/-- The twenty OP selectors. -/
inductive Selector where
  | crcInit | crcUpdate | crcRead | crcCompute | crcAppend | crcCheck
  | rtuEnc | rtuEncwc | rtuEncwr | rtuDec | packCoils | unpackCoils | packRegs | unpackRegs
  | mbapDec | mbapEnc | mbapErr | storeGet | storeSet | srvTx
  deriving DecidableEq, Repr

/-- The OP column of R100. -/
def Selector.byte : Selector → Byte
  | .crcInit => 0x00
  | .crcUpdate => 0x01
  | .crcRead => 0x02
  | .crcCompute => 0x03
  | .crcAppend => 0x04
  | .crcCheck => 0x05
  | .rtuEnc => 0x10
  | .rtuEncwc => 0x11
  | .rtuEncwr => 0x12
  | .rtuDec => 0x13
  | .packCoils => 0x14
  | .unpackCoils => 0x15
  | .packRegs => 0x16
  | .unpackRegs => 0x17
  | .mbapDec => 0x20
  | .mbapEnc => 0x21
  | .mbapErr => 0x22
  | .storeGet => 0x30
  | .storeSet => 0x31
  | .srvTx => 0x40

/-- Every OP selector, in R100's order. -/
def allSelectors : List Selector :=
  [.crcInit, .crcUpdate, .crcRead, .crcCompute, .crcAppend, .crcCheck,
   .rtuEnc, .rtuEncwc, .rtuEncwr, .rtuDec, .packCoils, .unpackCoils, .packRegs, .unpackRegs,
   .mbapDec, .mbapEnc, .mbapErr, .storeGet, .storeSet, .srvTx]

/-- The selector a byte stands for, if R100 lists it. -/
def selectorOf (op : Byte) : Option Selector := allSelectors.find? (fun o => o.byte == op)

/-! ### Function codes (30_encoding.md R93) -/

/-- The eight legal function codes. -/
inductive Fn where
  | readCoils | readDiscreteInputs | readHoldingRegisters | readInputRegisters
  | writeSingleCoil | writeSingleRegister | writeMultipleCoils | writeMultipleRegisters
  deriving DecidableEq, Repr

/-- The fc column of R93. -/
def Fn.byte : Fn → Byte
  | .readCoils => 0x01
  | .readDiscreteInputs => 0x02
  | .readHoldingRegisters => 0x03
  | .readInputRegisters => 0x04
  | .writeSingleCoil => 0x05
  | .writeSingleRegister => 0x06
  | .writeMultipleCoils => 0x0F
  | .writeMultipleRegisters => 0x10

/-- Every legal function code, in R93's order. -/
def allFns : List Fn :=
  [.readCoils, .readDiscreteInputs, .readHoldingRegisters, .readInputRegisters,
   .writeSingleCoil, .writeSingleRegister, .writeMultipleCoils, .writeMultipleRegisters]

/-- The function a byte stands for; none for an illegal function code (R94). -/
def fnOf (fc : Byte) : Option Fn := allFns.find? (fun g => g.byte == fc)

/-- The function-code instruction of a request's fields. -/
def Fn.instr (g : Fn) (h : MbapHeader) (a n : Half) (rest : List Byte) : Instr :=
  match g with
  | .readCoils => .readCoils h a n rest
  | .readDiscreteInputs => .readDiscreteInputs h a n rest
  | .readHoldingRegisters => .readHoldingRegisters h a n rest
  | .readInputRegisters => .readInputRegisters h a n rest
  | .writeSingleCoil => .writeSingleCoil h a n rest
  | .writeSingleRegister => .writeSingleRegister h a n rest
  | .writeMultipleCoils => .writeMultipleCoils h a n rest
  | .writeMultipleRegisters => .writeMultipleRegisters h a n rest

/-! ### MBAP request frames (30_encoding.md R85, R86, R90) -/

/-- The frame of a request: format TQ, then whatever stands from offset 12 on (format TQ-M, or ignored bytes). -/
def requestFrame (h : MbapHeader) (fc : Byte) (a n : Half) (rest : List Byte) : List Byte :=
  [hi8 h.txn, lo8 h.txn, hi8 h.proto, lo8 h.proto, hi8 h.len, lo8 h.len, h.unit, fc,
   hi8 a, lo8 a, hi8 n, lo8 n] ++ rest

/-- The header fields of a frame of 12 bytes or more. -/
def headerOf (q : List Byte) : MbapHeader where
  txn := be16 (byteAt q 0) (byteAt q 1)
  proto := be16 (byteAt q 2) (byteAt q 3)
  len := be16 (byteAt q 4) (byteAt q 5)
  unit := byteAt q 6

/-- The function-code instruction a request frame carries; none when it is shorter than 12 bytes or its function code
is illegal (42_mbap_codec.md R171, 30_encoding.md R94). -/
def decodeFrame (q : List Byte) : Option Instr :=
  if q.length < 12 then none
  else
    match fnOf (byteAt q 7) with
    | none => none
    | some g =>
      some (g.instr (headerOf q) (be16 (byteAt q 8) (byteAt q 9)) (be16 (byteAt q 10) (byteAt q 11)) (q.drop 12))

/-! ### Commands -/

/-- The bank a 2-bit selector names (10_state.md R24). -/
def bankOf (b : BitVec 2) : Bank :=
  if b = 0 then .bit .coil
  else if b = 1 then .bit .disc
  else if b = 2 then .reg .hold
  else .reg .inpt

/-- The 2-bit selector of a bank (10_state.md R24). -/
def bankSelector : Bank → BitVec 2
  | .bit .coil => 0
  | .bit .disc => 1
  | .reg .hold => 2
  | .reg .inpt => 3

/-- STORE.SET's element: the bit line for COIL and DISC, the register line for HOLD and INPT. -/
def elementFor (b : Bank) (vBit : Bool) (vReg : Half) : Element :=
  match b with
  | .bit b => .bit b vBit
  | .reg b => .reg b vReg

/-- Why a command is rejected (30_encoding.md R101). -/
inductive Reject where
  | undefinedSelector (op : Byte)
  deriving DecidableEq, Repr

/-- An operation with its operands, read from the lines R100 gives it. -/
def Selector.instr (o : Selector) (c : Command) : Instr :=
  match o with
  | .crcInit => .crcInit
  | .crcUpdate => .crcUpdate c.d
  | .crcRead => .crcRead
  | .crcCompute => .crcCompute c.bytes
  | .crcAppend => .crcAppend c.bytes
  | .crcCheck => .crcCheck c.bytes
  | .rtuEnc => .rtuEnc c.unit c.fc c.addr c.qv
  | .rtuEncwc => .rtuEncwc c.unit c.addr c.bits
  | .rtuEncwr => .rtuEncwr c.unit c.addr c.regs
  | .rtuDec => .rtuDec c.bytes
  | .packCoils => .packCoils c.bits
  | .unpackCoils => .unpackCoils c.bytes c.n
  | .packRegs => .packRegs c.regs
  | .unpackRegs => .unpackRegs c.bytes
  | .mbapDec => .mbapDec c.bytes
  | .mbapEnc => .mbapEnc c.bytes c.fc c.payload
  | .mbapErr => .mbapErr c.bytes c.fc
  | .storeGet => .storeGet (bankOf c.b) c.i
  | .storeSet => .storeSet c.i (elementFor (bankOf c.b) c.vBit c.vReg)
  | .srvTx => (decodeFrame c.bytes).getD (.srvTx c.bytes)

/-- The decoder: total on every command. -/
def decode (c : Command) : Except Reject Instr :=
  match selectorOf c.op with
  | some o => .ok (o.instr c)
  | none => .error (.undefinedSelector c.op)

/-- SRV.TX carrying one request frame. -/
def frameCommand (q : List Byte) : Command where
  op := 0x40
  bytes := q

/-- The encoder: an instruction's selector and operand lines, every other line zero or empty. -/
def encode : Instr → Command
  | .crcInit => { op := 0x00 }
  | .crcUpdate d => { op := 0x01, d := d }
  | .crcRead => { op := 0x02 }
  | .crcCompute s => { op := 0x03, bytes := s }
  | .crcAppend s => { op := 0x04, bytes := s }
  | .crcCheck f => { op := 0x05, bytes := f }
  | .rtuEnc unit fc addr qv => { op := 0x10, unit := unit, fc := fc, addr := addr, qv := qv }
  | .rtuEncwc unit addr x => { op := 0x11, unit := unit, addr := addr, bits := x }
  | .rtuEncwr unit addr x => { op := 0x12, unit := unit, addr := addr, regs := x }
  | .rtuDec f => { op := 0x13, bytes := f }
  | .packCoils x => { op := 0x14, bits := x }
  | .unpackCoils p n => { op := 0x15, bytes := p, n := n }
  | .packRegs x => { op := 0x16, regs := x }
  | .unpackRegs p => { op := 0x17, bytes := p }
  | .mbapDec q => { op := 0x20, bytes := q }
  | .mbapEnc q fc p => { op := 0x21, bytes := q, fc := fc, payload := p }
  | .mbapErr q fc => { op := 0x22, bytes := q, fc := fc }
  | .storeGet b i => { op := 0x30, b := bankSelector b, i := i }
  | .storeSet i (.bit b v) => { op := 0x31, b := bankSelector (.bit b), i := i, vBit := v }
  | .storeSet i (.reg b v) => { op := 0x31, b := bankSelector (.reg b), i := i, vReg := v }
  | .srvTx q => frameCommand q
  | .readCoils h a n r => frameCommand (requestFrame h 0x01 a n r)
  | .readDiscreteInputs h a n r => frameCommand (requestFrame h 0x02 a n r)
  | .readHoldingRegisters h a n r => frameCommand (requestFrame h 0x03 a n r)
  | .readInputRegisters h a n r => frameCommand (requestFrame h 0x04 a n r)
  | .writeSingleCoil h a v r => frameCommand (requestFrame h 0x05 a v r)
  | .writeSingleRegister h a v r => frameCommand (requestFrame h 0x06 a v r)
  | .writeMultipleCoils h a n r => frameCommand (requestFrame h 0x0F a n r)
  | .writeMultipleRegisters h a n r => frameCommand (requestFrame h 0x10 a n r)

/-- The expansion of the pseudo-operations (30_encoding.md R105). -/
def Pseudo.expand : Pseudo → Instr
  | .rdCoils unit addr qty => .rtuEnc unit 0x01 addr qty
  | .rdDisc unit addr qty => .rtuEnc unit 0x02 addr qty
  | .rdHold unit addr qty => .rtuEnc unit 0x03 addr qty
  | .rdInpt unit addr qty => .rtuEnc unit 0x04 addr qty
  | .wrCoil unit addr on => .rtuEnc unit 0x05 addr (if on then 0xFF00 else 0x0000)
  | .wrReg unit addr v => .rtuEnc unit 0x06 addr v
  | .wrCoils unit addr x => .rtuEncwc unit addr x
  | .wrRegs unit addr x => .rtuEncwr unit addr x

/-! ### The opcode table's numbering (log 10) -/

/-- The command of an opcode-table word, every operand zero or empty. The table gives the OP rows their selector byte
and the function-code rows their function-code byte. A byte that is an OP selector is that selector. A byte that is
only a function code (0x06, 0x0F) stands at its place, offset 7 of a request frame that is otherwise zero: 12 bytes,
and 13 for the format TQ-M of 0x0F. DESIGN CHOICE (log 10). -/
def tableCommand (w : Nat) : Command :=
  let op := BitVec.ofNat 8 w
  if op = 0x06 then frameCommand (requestFrame ⟨0, 0, 0, 0⟩ 0x06 0 0 [])
  else if op = 0x0F then frameCommand (requestFrame ⟨0, 0, 0, 0⟩ 0x0F 0 0 [0])
  else { op := op }

/-- The instruction the decoder reads from an opcode-table word of `nbits` bits. Every row has 8 bits. -/
def decodeTableWord (nbits w : Nat) : Option Instr :=
  if nbits = 8 ∧ w < 256 then (decode (tableCommand w)).toOption else none

end Sys2Proof
end

