-- ==== Sys2Proof/Machine/Operands.lean ====
section
/-! DEFINITION. The operand forms that cross a frame: packed coils, packed registers, the coil value field, byte
counts. Each function is the one its rule names. -/

namespace Sys2Proof.Machine

/-- `ceil(n / 8)`. -/
def ceil8 (n : Nat) : Nat := (n + 7) / 8

/-- The 8-bit byte-count field; every use has `n ≤ 255` (00_scope.md R11). -/
def countByte (n : Nat) : Byte := BitVec.ofNat 8 n

/-- Byte k of the packed form of x: bit j is x[8k+j], and 0 where x has no such element (41_rtu_codec.md R160). -/
def packByte (x : List Bool) (k : Nat) : Byte :=
  BitVec.ofNat 8 (((List.range 8).map fun j => if x.getD (8 * k + j) false then 2 ^ j else 0).sum)

/-- `packCoils(x)` (41_rtu_codec.md R160, 20_memory.md R55). -/
def packCoils (x : List Bool) : List Byte := (List.range (ceil8 x.length)).map (packByte x)

/-- Bit k of a packed payload. -/
def packedBit (p : List Byte) (k : Nat) : Bool := (byteAt p (k / 8)).getLsbD (k % 8)

/-- `unpackCoils(p, n)` (41_rtu_codec.md R161): FormatError when p holds fewer than n bits. -/
def unpackCoils (p : List Byte) (n : Nat) : Except ErrKind (List Bool) :=
  if 8 * p.length < n then .error .formatError
  else .ok ((List.range n).map (packedBit p))

/-- `packRegs(x)` (41_rtu_codec.md R162, 20_memory.md R56). -/
def packRegs : List Half → List Byte
  | [] => []
  | v :: x => hi8 v :: lo8 v :: packRegs x

/-- The registers of a payload of even length, high byte first. -/
def regsOf : List Byte → List Half
  | h :: l :: p => be16 h l :: regsOf p
  | _ => []

/-- `unpackRegs(p)` (41_rtu_codec.md R163): FormatError for an odd length. -/
def unpackRegs (p : List Byte) : Except ErrKind (List Half) :=
  if p.length % 2 = 1 then .error .formatError else .ok (regsOf p)

/-- `coilValue(v)` (44_function_codes.md R226). -/
def coilValue (v : Half) : Except ErrKind Bool :=
  if v = 0xFF00 then .ok true
  else if v = 0x0000 then .ok false
  else .error .formatError

end Sys2Proof.Machine
end

