-- ==== Sys2Proof/Machine/Ops.lean ====
section
/-! DEFINITION. The named operations over the state: bank cells, bank access, the range check, STATUS, an operation's
completion (success, and the one shared error entry), port rights, taking an input and reset. -/

namespace Sys2Proof.Machine

/-! ### Cells: sparse contents over a default -/

/-- The value at index i: the listed one, else the default. -/
def cellGet {α : Type} (dflt : Nat → α) : Cells α → Nat → α
  | [], i => dflt i
  | (j, v) :: l, i => if i = j then v else cellGet dflt l i

/-- Put a pair where its index belongs. -/
def cellInsert {α : Type} (i : Nat) (v : α) : Cells α → Cells α
  | [] => [(i, v)]
  | (j, w) :: l => if i < j then (i, v) :: (j, w) :: l else (j, w) :: cellInsert i v l

/-- Set index i to v, keeping the canonical form: the default value is not listed. -/
def cellSet {α : Type} [DecidableEq α] (dflt : Nat → α) (l : Cells α) (i : Nat) (v : α) : Cells α :=
  let rest := l.filter (fun p => !(p.1 == i))
  if v = dflt i then rest else cellInsert i v rest

/-- Set indices i, i+1, … to the elements of x. -/
def cellSetRange {α : Type} [DecidableEq α] (dflt : Nat → α) (l : Cells α) (i : Nat) : List α → Cells α
  | [] => l
  | v :: x => cellSetRange dflt (cellSet dflt l i v) (i + 1) x

/-- The canonical form of cells below a capacity: strictly rising indices, all below it, no entry equal to the
default. -/
abbrev cellsWf {α : Type} [DecidableEq α] (cap : Nat) (dflt : Nat → α) (l : Cells α) : Prop :=
  l.Pairwise (fun p q => p.1 < q.1) ∧ ∀ p ∈ l, p.1 < cap ∧ p.2 ≠ dflt p.1

/-! ### Banks (10_state.md R24, 43_data_store.md) -/

/-- INIT[b](i) of a bit bank (00_scope.md R9). -/
def initBit (cfg : Config) (b : BitBank) (i : Nat) : Bool := cellGet (fun _ => false) (cfg.initBits b) i

/-- INIT[b](i) of a register bank (00_scope.md R9). -/
def initReg (cfg : Config) (b : RegBank) (i : Nat) : Half := cellGet (fun _ => 0) (cfg.initRegs b) i

/-- The cells of a bit bank. -/
def Memory.bits (m : Memory) : BitBank → Cells Bool
  | .coil => m.coil
  | .disc => m.disc

/-- The cells of a register bank. -/
def Memory.regs (m : Memory) : RegBank → Cells Half
  | .hold => m.hold
  | .inpt => m.inpt

/-- The memory with a bit bank's cells replaced. -/
def Memory.withBits (m : Memory) (b : BitBank) (l : Cells Bool) : Memory :=
  match b with
  | .coil => { m with coil := l }
  | .disc => { m with disc := l }

/-- The memory with a register bank's cells replaced. -/
def Memory.withRegs (m : Memory) (b : RegBank) (l : Cells Half) : Memory :=
  match b with
  | .hold => { m with hold := l }
  | .inpt => { m with inpt := l }

/-- The canonical form of the data store under a configuration (log 7). -/
abbrev Memory.wf (cfg : Config) (m : Memory) : Prop :=
  cellsWf (cfg.cap (.bit .coil)) (initBit cfg .coil) m.coil ∧
  cellsWf (cfg.cap (.bit .disc)) (initBit cfg .disc) m.disc ∧
  cellsWf (cfg.cap (.reg .hold)) (initReg cfg .hold) m.hold ∧
  cellsWf (cfg.cap (.reg .inpt)) (initReg cfg .inpt) m.inpt

/-- `BankRead(b, i)` of a bit bank (43_data_store.md R191). -/
def readBit (s : State) (b : BitBank) (i : Nat) : Bool := cellGet (initBit s.cfg b) (s.mem.bits b) i

/-- `BankRead(b, i)` of a register bank (43_data_store.md R191). -/
def readReg (s : State) (b : RegBank) (i : Nat) : Half := cellGet (initReg s.cfg b) (s.mem.regs b) i

/-- `BankRead(b, i)` of any bank, with the bank it came from. -/
def readElement (s : State) (b : Bank) (i : Nat) : Element :=
  match b with
  | .bit b => .bit b (readBit s b i)
  | .reg b => .reg b (readReg s b i)

/-- `BankWrite(b, i, v)` of a bit bank (43_data_store.md R192). -/
def writeBit (s : State) (b : BitBank) (i : Nat) (v : Bool) : State :=
  { s with mem := s.mem.withBits b (cellSet (initBit s.cfg b) (s.mem.bits b) i v) }

/-- `BankWrite(b, i, v)` of a register bank (43_data_store.md R192). -/
def writeReg (s : State) (b : RegBank) (i : Nat) (v : Half) : State :=
  { s with mem := s.mem.withRegs b (cellSet (initReg s.cfg b) (s.mem.regs b) i v) }

/-- `BankWrite(b, i, v)` of any bank. -/
def writeElement (s : State) (i : Nat) (v : Element) : State :=
  match v with
  | .bit b v => writeBit s b i v
  | .reg b v => writeReg s b i v

/-- `inRange(b, A, Q)` in unbounded naturals (43_data_store.md R193). -/
abbrev inRange (cfg : Config) (b : Bank) (a q : Nat) : Prop := a < cfg.cap b ∧ a + q ≤ cfg.cap b

/-- `readRange(b, A, Q)` of a bit bank (43_data_store.md R194). -/
def readBits (s : State) (b : BitBank) (a q : Nat) : List Bool := (List.range q).map fun k => readBit s b (a + k)

/-- `readRange(b, A, Q)` of a register bank (43_data_store.md R194). -/
def readRegs (s : State) (b : RegBank) (a q : Nat) : List Half := (List.range q).map fun k => readReg s b (a + k)

/-- `writeRange(b, A, x)` of a bit bank (43_data_store.md R195). -/
def writeBits (s : State) (b : BitBank) (a : Nat) (x : List Bool) : State :=
  { s with mem := s.mem.withBits b (cellSetRange (initBit s.cfg b) (s.mem.bits b) a x) }

/-- `writeRange(b, A, x)` of a register bank (43_data_store.md R195). -/
def writeRegs (s : State) (b : RegBank) (a : Nat) (x : List Half) : State :=
  { s with mem := s.mem.withRegs b (cellSetRange (initReg s.cfg b) (s.mem.regs b) a x) }

/-! ### Agents and STATUS -/

/-- The agents of a block: H, and S_p for p < NUM_SRV (10_state.md R20). -/
def hasAgent (cfg : Config) : Agent → Bool
  | .host => true
  | .srv p => decide (p < cfg.numSrv)

/-- STATUS[a], as agent a reads it (10_state.md R23); none for a port that does not exist. -/
def State.statusOf (s : State) : Agent → Option Byte
  | .host => some s.statusH
  | .srv p => s.statusS[p]?

/-- `STATUS[a] <- v`. -/
def State.setStatus (s : State) (a : Agent) (v : Byte) : State :=
  match a with
  | .host => { s with statusH := v }
  | .srv p => { s with statusS := s.statusS.set p v }

/-! ### Completion and error entry -/

/-- The end of every operation: STATUS of the issuing agent takes the outcome's code, and the outcome goes back with
the completion (10_state.md R23). -/
def complete (s : State) (e : Option ErrKind) (r : Result) : State :=
  { s.setStatus s.issuer (statusCode e) with completion := some ⟨s.issuer, e, r⟩ }

/-- `return r`: the operation succeeds. -/
def finish (r : Result) (s : State) : Outcome := .next (complete s none r)

/-- `raise k`, the error entry (60_exceptions.md R248): STATUS of the issuing agent, the kind with the completion, and
nothing else; the next operation is issued as usual. -/
def raise (k : ErrKind) (s : State) : Outcome := .next (complete s (some k) .nothing)

/-- The end of an operation that computes its result or an error kind and changes no other state. -/
def settle (r : Except ErrKind Result) (s : State) : Outcome :=
  match r with
  | .ok v => finish v s
  | .error k => raise k s

/-! ### Port rights (30_encoding.md R101, 60_exceptions.md R252) -/

/-- An operation of host port H: on a server port it completes with ProtocolError and no effect. -/
def hostOnly (s : State) (o : Outcome) : Outcome :=
  match s.issuer with
  | .host => o
  | .srv _ => raise .protocolError s

/-- An operation of a server port: on H it completes with ProtocolError and no effect. -/
def serverOnly (s : State) (o : Outcome) : Outcome :=
  match s.issuer with
  | .host => raise .protocolError s
  | .srv _ => o

/-! ### Taking an input -/

/-- The block takes an operation that agent a has issued. -/
def accept (s : State) (a : Agent) (rest : List Input) : State := { s with pending := rest, issuer := a }

/-- An undefined OP selector: ProtocolError and no other effect (30_encoding.md R101). -/
def undefinedOperation (s : State) : Outcome := raise .protocolError s

/-- The reset event (70_reset_and_hazards.md R270): all state to its reset value, the configuration kept; the inputs
the environment has yet to give stay (log 13). -/
def takeReset (s : State) (rest : List Input) : Outcome := .next { State.resetWith s.cfg with pending := rest }

/-- Nothing has been issued: the block does nothing (log 4). -/
def idle (s : State) : Outcome := .next s

/-- The agent a table word is issued by: server port S_0 for SRV.TX, H for every other selector (R100). -/
def tableAgent (c : Command) : Agent := if c.op = 0x40 then .srv 0 else .host

end Sys2Proof.Machine
end

