-- ==== Sys2Proof/Machine/Crc.lean ====
section
/-! DEFINITION. The CRC unit (40_crc.md). -/

namespace Sys2Proof.Machine

/-- One bit iteration: shift right, and XOR with 0xA001 if the low bit was set (40_crc.md R120). -/
def crcShift (c : Half) : Half := if c.getLsbD 0 then (c >>> 1) ^^^ 0xA001 else c >>> 1

/-- n bit iterations. -/
def crcShifts : Nat → Half → Half
  | 0, c => c
  | n + 1, c => crcShifts n (crcShift c)

/-- `crcStep(c, d)`: XOR the byte into the low byte, then 8 bit iterations (40_crc.md R120). -/
def crcStep (c : Half) (d : Byte) : Half := crcShifts 8 (c ^^^ d.setWidth 16)

/-- `crc16(s)` (40_crc.md R120). -/
def crc16 (s : List Byte) : Half := s.foldl crcStep 0xFFFF

/-- `s ++ [lo8(c), hi8(c)]` with c = crc16(s) (20_memory.md R54). -/
def crcAppend (s : List Byte) : List Byte := s ++ [lo8 (crc16 s), hi8 (crc16 s)]

/-- The last two bytes, read low byte first, are the CRC of the bytes before them. -/
def crcMatches (f : List Byte) : Bool :=
  crc16 (f.take (f.length - 2)) == be16 (byteAt f (f.length - 1)) (byteAt f (f.length - 2))

/-- CRC.CHECK's pseudocode (40_crc.md R126). -/
def crcCheck (f : List Byte) : Except ErrKind (List Byte) :=
  if f.length < 2 then .error .formatError
  else if crcMatches f then .ok (f.take (f.length - 2))
  else .error .crcError

/-- CRC.INIT (40_crc.md R121). -/
def execCrcInit (s : State) : Outcome := hostOnly s (finish .nothing { s with crc := 0xFFFF })

/-- CRC.UPDATE d (40_crc.md R122). -/
def execCrcUpdate (d : Byte) (s : State) : Outcome :=
  hostOnly s (finish .nothing { s with crc := crcStep s.crc d })

/-- CRC.READ (40_crc.md R123). -/
def execCrcRead (s : State) : Outcome := hostOnly s (finish (.half s.crc) s)

/-- CRC.COMPUTE s (40_crc.md R124). -/
def execCrcCompute (x : List Byte) (s : State) : Outcome := hostOnly s (finish (.half (crc16 x)) s)

/-- CRC.APPEND s (40_crc.md R125). -/
def execCrcAppend (x : List Byte) (s : State) : Outcome := hostOnly s (finish (.bytes (crcAppend x)) s)

/-- CRC.CHECK f (40_crc.md R126). -/
def execCrcCheck (f : List Byte) (s : State) : Outcome := hostOnly s (settle ((crcCheck f).map .bytes) s)

end Sys2Proof.Machine
end

