-- ==== Sys2Proof/Machine/Mbap.lean ====
section
/-! DEFINITION. The MBAP codec (42_mbap_codec.md). -/

namespace Sys2Proof.Machine

/-- `mbapDecode(q)` (42_mbap_codec.md R171): FormatError below 12 bytes; no header field is validated (R172). -/
def mbapDecode (q : List Byte) : Except ErrKind (Byte × Byte × Half × Half) :=
  if q.length < 12 then .error .formatError
  else .ok (byteAt q 6, byteAt q 7, be16 (byteAt q 8) (byteAt q 9), be16 (byteAt q 10) (byteAt q 11))

/-- `mbapEncode(q, fc, P)` (42_mbap_codec.md R174, format TR): the length field is 3 + len(P) (R175). -/
def mbapEncode (q : List Byte) (fc : Byte) (p : List Byte) : Except ErrKind (List Byte) :=
  if q.length < 7 then .error .formatError
  else if 3 + p.length > 0xFFFF then .error .formatError
  else
    let len16 : Half := BitVec.ofNat 16 (3 + p.length)
    .ok (slice q 0 4 ++ [hi8 len16, lo8 len16, byteAt q 6, fc] ++ p)

/-- `mbapError(q, fc)` (42_mbap_codec.md R176, format TE). -/
def mbapError (q : List Byte) (fc : Byte) : Except ErrKind (List Byte) :=
  if q.length < 7 then .error .formatError
  else .ok (slice q 0 4 ++ [0x00, 0x03, byteAt q 6, fc ||| 0x80, 0x01])

/-- MBAP.DEC q (42_mbap_codec.md R171). -/
def execMbapDec (q : List Byte) (s : State) : Outcome :=
  hostOnly s (settle ((mbapDecode q).map fun r => .fields r.1 r.2.1 r.2.2.1 r.2.2.2) s)

/-- MBAP.ENC q, fc, P (42_mbap_codec.md R174). -/
def execMbapEnc (q : List Byte) (fc : Byte) (p : List Byte) (s : State) : Outcome :=
  hostOnly s (settle ((mbapEncode q fc p).map .bytes) s)

/-- MBAP.ERR q, fc (42_mbap_codec.md R176). -/
def execMbapErr (q : List Byte) (fc : Byte) (s : State) : Outcome :=
  hostOnly s (settle ((mbapError q fc).map .bytes) s)

end Sys2Proof.Machine
end

