-- ==== Sys2Proof/Machine/Rtu.lean ====
section
/-! DEFINITION. The RTU codec and the payload packing operations (41_rtu_codec.md). -/

namespace Sys2Proof.Machine

/-- RTU.ENC's pseudocode (41_rtu_codec.md R141; formats RQ-A and RQ-S). -/
def rtuEncode (unit fc : Byte) (addr qv : Half) : Except ErrKind (List Byte) :=
  if fc ∈ ([0x01, 0x02, 0x03, 0x04, 0x05, 0x06] : List Byte) then
    .ok (crcAppend [unit, fc, hi8 addr, lo8 addr, hi8 qv, lo8 qv])
  else .error .protocolError

/-- A write-multiple frame of format RQ-M (30_encoding.md R83) with element count q and a packed payload, whose
length is the byte count; FormatError when the byte count does not fit its 8-bit field. -/
def rtuEncodeMultiple (unit fc : Byte) (addr : Half) (q : Nat) (payload : List Byte) :
    Except ErrKind (List Byte) :=
  if payload.length > 255 then .error .formatError
  else
    let q16 : Half := BitVec.ofNat 16 q
    .ok (crcAppend ([unit, fc, hi8 addr, lo8 addr, hi8 q16, lo8 q16, countByte payload.length] ++ payload))

/-- RTU.DEC's pseudocode (41_rtu_codec.md R150; format RS). -/
def rtuDecode (f : List Byte) : Except ErrKind (List Byte) :=
  if f.length < 5 then .error .formatError
  else if crcMatches f then
    let n := (byteAt f 2).toNat
    if f.length < 5 + n then .error .formatError else .ok (slice f 3 (3 + n))
  else .error .crcError

/-- RTU.ENC unit, fc, addr, qv (41_rtu_codec.md R141). -/
def execRtuEnc (unit fc : Byte) (addr qv : Half) (s : State) : Outcome :=
  hostOnly s (settle ((rtuEncode unit fc addr qv).map .bytes) s)

/-- RTU.ENCWC unit, addr, x (41_rtu_codec.md R142). -/
def execRtuEncwc (unit : Byte) (addr : Half) (x : List Bool) (s : State) : Outcome :=
  hostOnly s (settle ((rtuEncodeMultiple unit 0x0F addr x.length (packCoils x)).map .bytes) s)

/-- RTU.ENCWR unit, addr, x (41_rtu_codec.md R143). -/
def execRtuEncwr (unit : Byte) (addr : Half) (x : List Half) (s : State) : Outcome :=
  hostOnly s (settle ((rtuEncodeMultiple unit 0x10 addr x.length (packRegs x)).map .bytes) s)

/-- RTU.DEC f (41_rtu_codec.md R150). -/
def execRtuDec (f : List Byte) (s : State) : Outcome := hostOnly s (settle ((rtuDecode f).map .bytes) s)

/-- PACK.COILS x (41_rtu_codec.md R160). -/
def execPackCoils (x : List Bool) (s : State) : Outcome := hostOnly s (finish (.bytes (packCoils x)) s)

/-- UNPACK.COILS p, n (41_rtu_codec.md R161). -/
def execUnpackCoils (p : List Byte) (n : Half) (s : State) : Outcome :=
  hostOnly s (settle ((unpackCoils p n.toNat).map .bits) s)

/-- PACK.REGS x (41_rtu_codec.md R162). -/
def execPackRegs (x : List Half) (s : State) : Outcome := hostOnly s (finish (.bytes (packRegs x)) s)

/-- UNPACK.REGS p (41_rtu_codec.md R163). -/
def execUnpackRegs (p : List Byte) (s : State) : Outcome := hostOnly s (settle ((unpackRegs p).map .regs) s)

end Sys2Proof.Machine
end

