-- ==== Sys2Proof/Machine/Server.lean ====
section
/-! DEFINITION. The request executor (44_function_codes.md): the handlers of the eight function codes, the end of a
transaction, SRV.TX, and the eight function-code instructions. -/

namespace Sys2Proof.Machine

/-- What a function-code handler answers: the response payload and the store after it, or an error kind
(44_function_codes.md, introduction). -/
inductive Reply where
  | ok (p : List Byte) (s : State)
  | fail (k : ErrKind)
  deriving DecidableEq, Repr

/-- The read handlers of the bit banks (44_function_codes.md R220, R221): range, then response size (R219). -/
def readBitsReply (b : BitBank) (a q : Nat) (s : State) : Reply :=
  if ¬ inRange s.cfg (.bit b) a q then .fail .outOfRangeError
  else if ceil8 q > 255 then .fail .outOfRangeError
  else .ok (countByte (ceil8 q) :: packCoils (readBits s b a q)) s

/-- The read handlers of the register banks (44_function_codes.md R222, R223). -/
def readRegsReply (b : RegBank) (a q : Nat) (s : State) : Reply :=
  if ¬ inRange s.cfg (.reg b) a q then .fail .outOfRangeError
  else if 2 * q > 255 then .fail .outOfRangeError
  else .ok (countByte (2 * q) :: packRegs (readRegs s b a q)) s

/-- The handler of 0x05 (44_function_codes.md R224): value, then range. -/
def writeCoilReply (q : List Byte) (a v : Half) (s : State) : Reply :=
  match coilValue v with
  | .error k => .fail k
  | .ok bit =>
    if inRange s.cfg (.bit .coil) a.toNat 1 then .ok (slice q 8 12) (writeBit s .coil a.toNat bit)
    else .fail .outOfRangeError

/-- The handler of 0x06 (44_function_codes.md R225). -/
def writeRegReply (q : List Byte) (a v : Half) (s : State) : Reply :=
  if inRange s.cfg (.reg .hold) a.toNat 1 then .ok (slice q 8 12) (writeReg s .hold a.toNat v)
  else .fail .outOfRangeError

/-- The payload of a write-multiple request (30_encoding.md R86): FormatError when the byte count is missing, the
payload is shorter than it, or it is not the byte count the quantity needs. -/
def multiplePayload (q : List Byte) (need : Nat) : Except ErrKind (List Byte) :=
  if q.length < 13 then .error .formatError
  else
    let n := (byteAt q 12).toNat
    if q.length < 13 + n then .error .formatError
    else if n ≠ need then .error .formatError
    else .ok (slice q 13 (13 + n))

/-- The handler of 0x0F (44_function_codes.md R227): frame shape, then range, then the write. -/
def writeCoilsReply (q : List Byte) (a n : Half) (s : State) : Reply :=
  match multiplePayload q (ceil8 n.toNat) with
  | .error k => .fail k
  | .ok p =>
    if ¬ inRange s.cfg (.bit .coil) a.toNat n.toNat then .fail .outOfRangeError
    else
      match unpackCoils p n.toNat with
      | .error k => .fail k
      | .ok x => .ok (slice q 8 12) (writeBits s .coil a.toNat x)

/-- The handler of 0x10 (44_function_codes.md R228). -/
def writeRegsReply (q : List Byte) (a n : Half) (s : State) : Reply :=
  match multiplePayload q (2 * n.toNat) with
  | .error k => .fail k
  | .ok p =>
    if ¬ inRange s.cfg (.reg .hold) a.toNat n.toNat then .fail .outOfRangeError
    else
      match unpackRegs p with
      | .error k => .fail k
      | .ok x => .ok (slice q 8 12) (writeRegs s .hold a.toNat x)

/-- The handler a function code selects (44_function_codes.md R230). -/
def handler (g : Fn) (q : List Byte) (a n : Half) (s : State) : Reply :=
  match g with
  | .readCoils => readBitsReply .coil a.toNat n.toNat s
  | .readDiscreteInputs => readBitsReply .disc a.toNat n.toNat s
  | .readHoldingRegisters => readRegsReply .hold a.toNat n.toNat s
  | .readInputRegisters => readRegsReply .inpt a.toNat n.toNat s
  | .writeSingleCoil => writeCoilReply q a n s
  | .writeSingleRegister => writeRegReply q a n s
  | .writeMultipleCoils => writeCoilsReply q a n s
  | .writeMultipleRegisters => writeRegsReply q a n s

/-- The end of a transaction that failed with kind k: STATUS takes the kind and the response is the error frame
(44_function_codes.md R211, R216). -/
def errorResponse (q : List Byte) (fc : Byte) (k : ErrKind) (s : State) : Outcome :=
  .next (complete s (some k) (.response (mbapError q fc).toOption))

/-- The end of a transaction whose handler answered: the normal frame or the error frame, and STATUS written once
(44_function_codes.md R211). The frame builders cannot fail here (42_mbap_codec.md R174; log 14). -/
def conclude (q : List Byte) (fc : Byte) (r : Reply) (s : State) : Outcome :=
  match r with
  | .ok p s' => .next (complete s' none (.response (mbapEncode q fc p).toOption))
  | .fail k => errorResponse q fc k s

/-- SRV.TX q (44_function_codes.md R211), whole: short requests (R212), illegal function codes (R229), dispatch
(R230). -/
def execSrvTx (q : List Byte) (s : State) : Outcome :=
  serverOnly s
    (if q.length < 8 then .next (complete s (some .formatError) (.response none))
     else
      match mbapDecode q with
      | .error k => errorResponse q (byteAt q 7) k s
      | .ok (_, fc, a, n) =>
        match fnOf fc with
        | none => errorResponse q fc .protocolError s
        | some g => conclude q fc (handler g q a n s) s)

/-- A function-code instruction: the transaction of its request frame with the reply of its handler. -/
def transact (h : MbapHeader) (fc : Byte) (a n : Half) (rest : List Byte)
    (reply : List Byte → State → Reply) (s : State) : Outcome :=
  serverOnly s (conclude (requestFrame h fc a n rest) fc (reply (requestFrame h fc a n rest) s) s)

/-- READ_COILS (44_function_codes.md R220). -/
def execReadCoils (h : MbapHeader) (a n : Half) (rest : List Byte) (s : State) : Outcome :=
  transact h 0x01 a n rest (fun _ => readBitsReply .coil a.toNat n.toNat) s

/-- READ_DISCRETE_INPUTS (44_function_codes.md R221). -/
def execReadDiscreteInputs (h : MbapHeader) (a n : Half) (rest : List Byte) (s : State) : Outcome :=
  transact h 0x02 a n rest (fun _ => readBitsReply .disc a.toNat n.toNat) s

/-- READ_HOLDING_REGISTERS (44_function_codes.md R222). -/
def execReadHoldingRegisters (h : MbapHeader) (a n : Half) (rest : List Byte) (s : State) : Outcome :=
  transact h 0x03 a n rest (fun _ => readRegsReply .hold a.toNat n.toNat) s

/-- READ_INPUT_REGISTERS (44_function_codes.md R223). -/
def execReadInputRegisters (h : MbapHeader) (a n : Half) (rest : List Byte) (s : State) : Outcome :=
  transact h 0x04 a n rest (fun _ => readRegsReply .inpt a.toNat n.toNat) s

/-- WRITE_SINGLE_COIL (44_function_codes.md R224). -/
def execWriteSingleCoil (h : MbapHeader) (a v : Half) (rest : List Byte) (s : State) : Outcome :=
  transact h 0x05 a v rest (fun q => writeCoilReply q a v) s

/-- WRITE_SINGLE_REGISTER (44_function_codes.md R225). -/
def execWriteSingleRegister (h : MbapHeader) (a v : Half) (rest : List Byte) (s : State) : Outcome :=
  transact h 0x06 a v rest (fun q => writeRegReply q a v) s

/-- WRITE_MULTIPLE_COILS (44_function_codes.md R227). -/
def execWriteMultipleCoils (h : MbapHeader) (a n : Half) (rest : List Byte) (s : State) : Outcome :=
  transact h 0x0F a n rest (fun q => writeCoilsReply q a n) s

/-- WRITE_MULTIPLE_REGISTERS (44_function_codes.md R228). -/
def execWriteMultipleRegisters (h : MbapHeader) (a n : Half) (rest : List Byte) (s : State) : Outcome :=
  transact h 0x10 a n rest (fun q => writeRegsReply q a n) s

end Sys2Proof.Machine
end

