-- ==== Sys2Proof/Machine/Store.lean ====
section
/-! DEFINITION. The data store's host-port operations (43_data_store.md). -/

namespace Sys2Proof.Machine

/-- STORE.GET b, i (43_data_store.md R191). -/
def execStoreGet (b : Bank) (i : Half) (s : State) : Outcome :=
  hostOnly s
    (if i.toNat < s.cfg.cap b then finish (.element (readElement s b i.toNat)) s
     else raise .outOfRangeError s)

/-- STORE.SET b, i, v (43_data_store.md R192); the bank is the element's. -/
def execStoreSet (i : Half) (v : Element) (s : State) : Outcome :=
  hostOnly s
    (if i.toNat < s.cfg.cap v.bank then finish .nothing (writeElement s i.toNat v)
     else raise .outOfRangeError s)

end Sys2Proof.Machine
end

