-- ==== Sys2Proof/Machine/Dispatch.lean ====
section
/-! DEFINITION. One arm per instruction: the meaning it calls. -/

namespace Sys2Proof.Machine

def exec (i : Instr) (s : State) : Host.Outcome State Fault Refusal :=
  match i with
  | .crcInit => Sys2Proof.Machine.execCrcInit s
  | .crcUpdate d => Sys2Proof.Machine.execCrcUpdate d s
  | .crcRead => Sys2Proof.Machine.execCrcRead s
  | .crcCompute x => Sys2Proof.Machine.execCrcCompute x s
  | .crcAppend x => Sys2Proof.Machine.execCrcAppend x s
  | .crcCheck f => Sys2Proof.Machine.execCrcCheck f s
  | .rtuEnc unit fc addr qv => Sys2Proof.Machine.execRtuEnc unit fc addr qv s
  | .rtuEncwc unit addr x => Sys2Proof.Machine.execRtuEncwc unit addr x s
  | .rtuEncwr unit addr x => Sys2Proof.Machine.execRtuEncwr unit addr x s
  | .rtuDec f => Sys2Proof.Machine.execRtuDec f s
  | .packCoils x => Sys2Proof.Machine.execPackCoils x s
  | .unpackCoils p n => Sys2Proof.Machine.execUnpackCoils p n s
  | .packRegs x => Sys2Proof.Machine.execPackRegs x s
  | .unpackRegs p => Sys2Proof.Machine.execUnpackRegs p s
  | .mbapDec q => Sys2Proof.Machine.execMbapDec q s
  | .mbapEnc q fc p => Sys2Proof.Machine.execMbapEnc q fc p s
  | .mbapErr q fc => Sys2Proof.Machine.execMbapErr q fc s
  | .storeGet b k => Sys2Proof.Machine.execStoreGet b k s
  | .storeSet k v => Sys2Proof.Machine.execStoreSet k v s
  | .srvTx q => Sys2Proof.Machine.execSrvTx q s
  | .readCoils h a n r => Sys2Proof.Machine.execReadCoils h a n r s
  | .readDiscreteInputs h a n r => Sys2Proof.Machine.execReadDiscreteInputs h a n r s
  | .readHoldingRegisters h a n r => Sys2Proof.Machine.execReadHoldingRegisters h a n r s
  | .readInputRegisters h a n r => Sys2Proof.Machine.execReadInputRegisters h a n r s
  | .writeSingleCoil h a v r => Sys2Proof.Machine.execWriteSingleCoil h a v r s
  | .writeSingleRegister h a v r => Sys2Proof.Machine.execWriteSingleRegister h a v r s
  | .writeMultipleCoils h a n r => Sys2Proof.Machine.execWriteMultipleCoils h a n r s
  | .writeMultipleRegisters h a n r => Sys2Proof.Machine.execWriteMultipleRegisters h a n r s

end Sys2Proof.Machine
end

