-- ==== Sys2Proof/Machine/Step.lean ====
section
/-! DEFINITION. One step of the block: it takes the next input. An operation is decoded and run as one atomic step of
the agent that issued it (10_state.md R27, 20_memory.md R60); a reset event resets (70_reset_and_hazards.md R270). -/

namespace Sys2Proof.Machine

/-- One step. -/
def step (s : State) : Host.Outcome State Fault Refusal :=
  match s.pending with
  | [] => idle s
  | .reset :: rest => takeReset s rest
  | .op a c :: rest =>
    if hasAgent s.cfg a then
      match decode c with
      | .ok i => exec i (accept s a rest)
      | .error _ => undefinedOperation (accept s a rest)
    else .fault (.noSuchAgent a)

/-- The environment issues, ahead of everything pending, the operation of an opcode-table word: from S_0 for SRV.TX
and the function codes, from H for every other selector (log 10, log 11). -/
def State.withFetchWord (s : State) (_nbits w : Nat) : State :=
  { s with pending := .op (tableAgent (tableCommand w)) (tableCommand w) :: s.pending }

end Sys2Proof.Machine
end

