-- ==== Sys2Proof/Safety.lean ====
section
/-! DEFINITION. What counts as a good state and a safe run, and the words the statements are written in: the frame of
a completed operation, the response frames as the spec lays them out, and the environment's inputs. -/

namespace Sys2Proof.Machine

/-! ### Good states -/

/-- A legal configuration (00_scope.md R8–R10, 70_reset_and_hazards.md R273): capacities 1 … 65536, at least one
server port, INIT in canonical form below the capacities. -/
abbrev configWf (c : Config) : Prop :=
  (1 ≤ c.capCoil ∧ c.capCoil ≤ 65536) ∧ (1 ≤ c.capDisc ∧ c.capDisc ≤ 65536) ∧
  (1 ≤ c.capHold ∧ c.capHold ≤ 65536) ∧ (1 ≤ c.capInpt ∧ c.capInpt ≤ 65536) ∧
  1 ≤ c.numSrv ∧
  cellsWf c.capCoil (fun _ => false) c.initCoil ∧ cellsWf c.capDisc (fun _ => false) c.initDisc ∧
  cellsWf c.capHold (fun _ => (0 : Half)) c.initHold ∧ cellsWf c.capInpt (fun _ => (0 : Half)) c.initInpt

/-- A STATUS value the block writes: ERR is 0 … 4 and bits [7:3] are 0 (10_state.md R23). -/
abbrev statusLegal (st : Byte) : Prop := st.toNat ≤ 4

/-- The invariant: a legal configuration, the store in canonical form inside its capacities, one legal STATUS per
agent, an issuer that exists, and STATUS of the last completion's agent equal to that completion's outcome
(10_state.md R23: "STATUS[a] is a copy of the last completion"). -/
abbrev Inv (s : State) : Prop :=
  configWf s.cfg ∧ s.mem.wf s.cfg ∧
  s.statusS.length = s.cfg.numSrv ∧ statusLegal s.statusH ∧ (∀ st ∈ s.statusS, statusLegal st) ∧
  hasAgent s.cfg s.issuer = true ∧
  (∀ c ∈ s.completion, hasAgent s.cfg c.agent = true ∧ s.statusOf c.agent = some (statusCode c.error))

/-! ### Frames -/

/-- What completing an operation with outcome e and result r does to everything but the store and CRC: STATUS of the
issuing agent (if there is such a port) takes the outcome's code, the completion carries the outcome, and every other
STATUS, the configuration, the environment's inputs and the issuer are unchanged. -/
structure Completes (s t : State) (e : Option ErrKind) (r : Result) : Prop where
  completion : t.completion = some ⟨s.issuer, e, r⟩
  status : (s.statusOf s.issuer).isSome = true → t.statusOf s.issuer = some (statusCode e)
  otherStatus : ∀ a, a ≠ s.issuer → t.statusOf a = s.statusOf a
  cfg : t.cfg = s.cfg
  pending : t.pending = s.pending
  issuer : t.issuer = s.issuer

/-- Every element of every bank reads as before. -/
def StoreKept (s t : State) : Prop := ∀ b i, readElement t b i = readElement s b i

/-- Every element reads as before but those of bank b at indices a, …, a + n − 1. -/
def StoreKeptOutside (s t : State) (b : Bank) (a n : Nat) : Prop :=
  ∀ b' i, ¬ (b' = b ∧ a ≤ i ∧ i < a + n) → readElement t b' i = readElement s b' i

/-- The operation completed with outcome e and result r and did nothing else. -/
structure OnlyCompletes (s t : State) (e : Option ErrKind) (r : Result) : Prop extends Completes s t e r where
  store : StoreKept s t
  crc : t.crc = s.crc

/-! ### Response frames as the spec lays them out -/

/-- Format TR (30_encoding.md R87) for a request with header h. -/
def normalFrame (h : MbapHeader) (fc : Byte) (p : List Byte) : List Byte :=
  let len : Half := BitVec.ofNat 16 (3 + p.length)
  [hi8 h.txn, lo8 h.txn, hi8 h.proto, lo8 h.proto, hi8 len, lo8 len, h.unit, fc] ++ p

/-- Format TE (30_encoding.md R88) for a request with header h. -/
def errorFrame (h : MbapHeader) (fc : Byte) : List Byte :=
  [hi8 h.txn, lo8 h.txn, hi8 h.proto, lo8 h.proto, 0x00, 0x03, h.unit, fc ||| 0x80, 0x01]

/-! ### Bit flips -/

/-- f with bit j of byte k flipped. -/
def flipBit (f : List Byte) (k : Nat) (j : Fin 8) : List Byte :=
  f.set k (byteAt f k ^^^ BitVec.twoPow 8 j.val)

/-! ### Instructions and inputs -/

/-- The instructions that only a server port may issue: SRV.TX and the function codes it carries. -/
def isServerInstr : Instr → Bool
  | .srvTx _ => true
  | .readCoils _ _ _ _ => true
  | .readDiscreteInputs _ _ _ _ => true
  | .readHoldingRegisters _ _ _ _ => true
  | .readInputRegisters _ _ _ _ => true
  | .writeSingleCoil _ _ _ _ => true
  | .writeSingleRegister _ _ _ _ => true
  | .writeMultipleCoils _ _ _ _ => true
  | .writeMultipleRegisters _ _ _ _ => true
  | .crcInit => false
  | .crcUpdate _ => false
  | .crcRead => false
  | .crcCompute _ => false
  | .crcAppend _ => false
  | .crcCheck _ => false
  | .rtuEnc _ _ _ _ => false
  | .rtuEncwc _ _ _ => false
  | .rtuEncwr _ _ _ => false
  | .rtuDec _ => false
  | .packCoils _ => false
  | .unpackCoils _ _ => false
  | .packRegs _ => false
  | .unpackRegs _ => false
  | .mbapDec _ => false
  | .mbapEnc _ _ _ => false
  | .mbapErr _ _ => false
  | .storeGet _ _ => false
  | .storeSet _ _ => false

/-- The function code of the request frame an instruction of a server port carries, if it carries one. -/
def requestFc : Instr → Option Byte
  | .srvTx q => if q.length < 8 then none else some (byteAt q 7)
  | .readCoils _ _ _ _ => some 0x01
  | .readDiscreteInputs _ _ _ _ => some 0x02
  | .readHoldingRegisters _ _ _ _ => some 0x03
  | .readInputRegisters _ _ _ _ => some 0x04
  | .writeSingleCoil _ _ _ _ => some 0x05
  | .writeSingleRegister _ _ _ _ => some 0x06
  | .writeMultipleCoils _ _ _ _ => some 0x0F
  | .writeMultipleRegisters _ _ _ _ => some 0x10
  | _ => none

/-- The operation j of agent a is a write whose operands name element i of bank b: STORE.SET on H, and on a server port
the four write function codes (10_state.md R25). Whether it succeeds is not asked. -/
def namesElement (a : Agent) (j : Instr) (b : Bank) (i : Nat) : Bool :=
  match a, j with
  | .host, .storeSet k v => decide (b = v.bank ∧ i = k.toNat)
  | .srv _, .writeSingleCoil _ k _ _ => decide (b = .bit .coil ∧ i = k.toNat)
  | .srv _, .writeSingleRegister _ k _ _ => decide (b = .reg .hold ∧ i = k.toNat)
  | .srv _, .writeMultipleCoils _ k n _ => decide (b = .bit .coil ∧ k.toNat ≤ i ∧ i < k.toNat + n.toNat)
  | .srv _, .writeMultipleRegisters _ k n _ => decide (b = .reg .hold ∧ k.toNat ≤ i ∧ i < k.toNat + n.toNat)
  | _, _ => false

/-- The environment can give this input: a reset, or an operation of an agent that exists. -/
def issuable (cfg : Config) : Input → Bool
  | .op a _ => hasAgent cfg a
  | .reset => true

/-- The operations among the inputs that write CRC (CRC.INIT and CRC.UPDATE issued by H), in order. -/
def crcWrites (l : List Input) : List Instr :=
  l.filterMap fun x =>
    match x with
    | .op .host c =>
      match decode c with
      | .ok .crcInit => some .crcInit
      | .ok (.crcUpdate d) => some (.crcUpdate d)
      | _ => none
    | _ => none

/-- A safe run: k steps from s reach a next state, so no input stands on a port that does not exist. -/
def SafeRun (k : Nat) (s : State) : Prop := ∃ t, Host.Core.run Sys2Proof.core k s = .next t

end Sys2Proof.Machine
end

