-- ==== Sys2Proof/Certificates/Slice0/Obligations.lean ====
section
/-! DEFINITION. The statements for the provers. A state is any state; the environment's inputs are any list, so every
statement about a step holds under every interleaving of the agents (20_memory.md R61). -/

open Sys2Proof Sys2Proof.Machine

/-! ### Decoding and stepping -/

/-- A step takes the next operation: it is decoded and executed with its agent as the issuer. The list of inputs is the
model's own (log 1). -/
def Obligations.StepRunsDecodedOperation : Prop :=
  ∀ (s : State) (a : Agent) (c : Command) (rest : List Input) (i : Instr),
    s.pending = .op a c :: rest → hasAgent s.cfg a = true → decode c = .ok i →
    step s = exec i { s with pending := rest, issuer := a }

/-- R101, whole: an undefined selector, or a selector R100 lists for a different agent, completes with ProtocolError
and no other effect. -/
def Obligations.UndefinedOrForeignSelectorIsProtocolError : Prop :=
  ∀ (s : State) (a : Agent) (c : Command) (rest : List Input),
    s.pending = .op a c :: rest → hasAgent s.cfg a = true →
    (c.op ∉ ([0x00, 0x01, 0x02, 0x03, 0x04, 0x05, 0x10, 0x11, 0x12, 0x13, 0x14, 0x15, 0x16, 0x17,
        0x20, 0x21, 0x22, 0x30, 0x31, 0x40] : List Byte) ∨
      (a = .host ∧ c.op = 0x40) ∨ (a ≠ .host ∧ c.op ≠ 0x40)) →
    ∃ t, step s = .next t ∧
      OnlyCompletes { s with pending := rest, issuer := a } t (some .protocolError) .nothing

/-- The machine stops only on an operation of a port that does not exist (log 12), and refuses nothing. -/
def Obligations.StepStopsOnlyOnMissingPort : Prop :=
  ∀ s : State,
    (∀ f, step s = .fault f ↔
      ∃ a c rest, s.pending = .op a c :: rest ∧ hasAgent s.cfg a = false ∧ f = .noSuchAgent a) ∧
    (∀ r, step s ≠ .refused r)

/-- Commands written out from R100 and R85 decode to the operations they stand for. -/
def Obligations.SampleCommandsDecode : Prop :=
  decode { op := 0x01, d := 0x0A } = .ok (.crcUpdate 0x0A) ∧
  decode { op := 0x10, unit := 0x11, fc := 0x03, addr := 0x006B, qv := 0x0003 } =
    .ok (.rtuEnc 0x11 0x03 0x006B 0x0003) ∧
  decode { op := 0x21, bytes := [0x00, 0x01], fc := 0x03, payload := [0x02] } =
    .ok (.mbapEnc [0x00, 0x01] 0x03 [0x02]) ∧
  decode { op := 0x31, b := 3, i := 0x0005, vReg := 0xBEEF } = .ok (.storeSet 0x0005 (.reg .inpt 0xBEEF)) ∧
  decode { op := 0x40, bytes := [0x12, 0x34, 0x00, 0x00, 0x00, 0x06, 0x01, 0x99, 0x00, 0x00, 0x00, 0x01] } =
    .ok (.srvTx [0x12, 0x34, 0x00, 0x00, 0x00, 0x06, 0x01, 0x99, 0x00, 0x00, 0x00, 0x01]) ∧
  decode { op := 0x40, bytes := [0x12, 0x34, 0x00, 0x00, 0x00, 0x06, 0x01, 0x10, 0x27, 0x0E, 0x00, 0x01, 0x02, 0xAB, 0xCD] } =
    .ok (.writeMultipleRegisters ⟨0x1234, 0x0000, 0x0006, 0x01⟩ 0x270E 0x0001 [0x02, 0xAB, 0xCD])

/-- Decode and encode agree, for every instruction and every operand. -/
def Obligations.DecodeOfEncodeIsIdentity : Prop :=
  ∀ i : Instr, i.wf = true → decode (encode i) = .ok i

/-- What the decoder answers is well-formed and keeps the selector and, for SRV.TX, every byte of the request frame;
re-encoding it decodes to it again. -/
def Obligations.DecodedInstructionKeepsItsCommand : Prop :=
  ∀ (c : Command) (i : Instr), decode c = .ok i →
    i.wf = true ∧ (encode i).op = c.op ∧ (c.op = 0x40 → (encode i).bytes = c.bytes) ∧
    decode (encode i) = .ok i

/-- The pseudo-operations build the frames R105 says: the read and write-single forms of RTU.ENC with their function
codes, 0xFF00 for on and 0x0000 for off, and the two write-multiple encoders. -/
def Obligations.PseudoOperationsExpandToEncoders : Prop :=
  ∀ (unit : Byte) (addr qv : Half) (x : List Bool) (y : List Half),
    decode { op := 0x10, unit := unit, fc := 0x01, addr := addr, qv := qv } = .ok (Pseudo.rdCoils unit addr qv).expand ∧
    decode { op := 0x10, unit := unit, fc := 0x02, addr := addr, qv := qv } = .ok (Pseudo.rdDisc unit addr qv).expand ∧
    decode { op := 0x10, unit := unit, fc := 0x03, addr := addr, qv := qv } = .ok (Pseudo.rdHold unit addr qv).expand ∧
    decode { op := 0x10, unit := unit, fc := 0x04, addr := addr, qv := qv } = .ok (Pseudo.rdInpt unit addr qv).expand ∧
    decode { op := 0x10, unit := unit, fc := 0x05, addr := addr, qv := 0xFF00 } = .ok (Pseudo.wrCoil unit addr true).expand ∧
    decode { op := 0x10, unit := unit, fc := 0x05, addr := addr, qv := 0x0000 } = .ok (Pseudo.wrCoil unit addr false).expand ∧
    decode { op := 0x10, unit := unit, fc := 0x06, addr := addr, qv := qv } = .ok (Pseudo.wrReg unit addr qv).expand ∧
    decode { op := 0x11, unit := unit, addr := addr, bits := x } = .ok (Pseudo.wrCoils unit addr x).expand ∧
    decode { op := 0x12, unit := unit, addr := addr, regs := y } = .ok (Pseudo.wrRegs unit addr y).expand

/-! ### CRC unit -/

/-- R120: crcStep is the XOR into the low byte and eight bit iterations, crc16 folds it from 0xFFFF, and the result is
appended low byte first. -/
def Obligations.CrcAlgorithm : Prop :=
  (∀ (c : Half) (d : Byte), ∃ v : Nat → Half,
    v 0 = c ^^^ d.setWidth 16 ∧
    (∀ k, v (k + 1) = if (v k).getLsbD 0 then (v k >>> 1) ^^^ 0xA001 else v k >>> 1) ∧
    crcStep c d = v 8) ∧
  crc16 [] = 0xFFFF ∧
  (∀ (x : List Byte) (d : Byte), crc16 (x ++ [d]) = crcStep (crc16 x) d) ∧
  (∀ x : List Byte, crcAppend x = x ++ [lo8 (crc16 x), hi8 (crc16 x)])

/-- R121: CRC.INIT. -/
def Obligations.CrcInitSetsInitialValue : Prop :=
  (∀ c : Command, c.op = 0x00 → decode c = .ok .crcInit) ∧
  ∀ s : State, s.issuer = .host →
    ∃ t, exec .crcInit s = .next t ∧ t.crc = 0xFFFF ∧ Completes s t none .nothing ∧ StoreKept s t

/-- R122: CRC.UPDATE. -/
def Obligations.CrcUpdateAdvancesAccumulator : Prop :=
  (∀ c : Command, c.op = 0x01 → decode c = .ok (.crcUpdate c.d)) ∧
  ∀ (d : Byte) (s : State), s.issuer = .host →
    ∃ t, exec (.crcUpdate d) s = .next t ∧ t.crc = crcStep s.crc d ∧ Completes s t none .nothing ∧ StoreKept s t

/-- R123: CRC.READ. -/
def Obligations.CrcReadReturnsAccumulator : Prop :=
  (∀ c : Command, c.op = 0x02 → decode c = .ok .crcRead) ∧
  ∀ s : State, s.issuer = .host →
    ∃ t, exec .crcRead s = .next t ∧ OnlyCompletes s t none (.half s.crc)

/-- R124 and R125: CRC.COMPUTE and CRC.APPEND, pure in the register CRC. -/
def Obligations.CrcComputeAndAppend : Prop :=
  (∀ c : Command, c.op = 0x03 → decode c = .ok (.crcCompute c.bytes)) ∧
  (∀ c : Command, c.op = 0x04 → decode c = .ok (.crcAppend c.bytes)) ∧
  ∀ (x : List Byte) (s : State), s.issuer = .host →
    (∃ t, exec (.crcCompute x) s = .next t ∧ OnlyCompletes s t none (.half (crc16 x))) ∧
    (∃ t, exec (.crcAppend x) s = .next t ∧
      OnlyCompletes s t none (.bytes (x ++ [lo8 (crc16 x), hi8 (crc16 x)])))

/-- R126: CRC.CHECK, on every frame: written as a body with its last two bytes, or too short to hold them. -/
def Obligations.CrcCheckComparesLastTwoBytes : Prop :=
  (∀ c : Command, c.op = 0x05 → decode c = .ok (.crcCheck c.bytes)) ∧
  ∀ s : State, s.issuer = .host →
    (∀ f : List Byte, f.length < 2 →
      ∃ t, exec (.crcCheck f) s = .next t ∧ OnlyCompletes s t (some .formatError) .nothing) ∧
    (∀ (body : List Byte) (l h : Byte), crc16 body = be16 h l →
      ∃ t, exec (.crcCheck (body ++ [l, h])) s = .next t ∧ OnlyCompletes s t none (.bytes body)) ∧
    (∀ (body : List Byte) (l h : Byte), crc16 body ≠ be16 h l →
      ∃ t, exec (.crcCheck (body ++ [l, h])) s = .next t ∧ OnlyCompletes s t (some .crcError) .nothing)

/-- R127 on the whole machine: whatever operations stand between, of H or of any server port, as long as the only
CRC.INIT and CRC.UPDATE that H issues are CRC.INIT and one CRC.UPDATE for each byte of ds, a CRC.READ then returns
crc16(ds). The list of inputs is the model's own (log 1). -/
def Obligations.IncrementalCrcUnderInterleaving : Prop :=
  ∀ (s : State) (before : List Input) (c : Command) (after : List Input) (ds : List Byte),
    s.pending = before ++ .op .host c :: after → decode c = .ok .crcRead →
    (∀ x ∈ before, x ≠ .reset ∧ issuable s.cfg x = true) →
    crcWrites before = .crcInit :: ds.map .crcUpdate →
    ∃ t : State, Host.Core.run Sys2Proof.core (before.length + 1) s = .next t ∧
      t.crc = crc16 ds ∧ t.completion = some ⟨.host, none, .half (crc16 ds)⟩ ∧ t.pending = after

/-- R128: what CRC.APPEND returns, CRC.CHECK accepts, giving back the sequence. -/
def Obligations.CrcCheckAcceptsAppended : Prop :=
  ∀ (x : List Byte) (s : State), s.issuer = .host →
    ∃ t f u, exec (.crcAppend x) s = .next t ∧ t.completion = some ⟨.host, none, .bytes f⟩ ∧
      exec (.crcCheck f) t = .next u ∧ u.completion = some ⟨.host, none, .bytes x⟩ ∧ u.statusH = 0

/-- R129: the CRC of a sequence followed by its CRC bytes is zero. -/
def Obligations.CrcResidueIsZero : Prop :=
  ∀ x : List Byte, crc16 (x ++ [lo8 (crc16 x), hi8 (crc16 x)]) = 0

/-- R130: flipping any one bit of what CRC.APPEND returns, in the CRC bytes too, makes CRC.CHECK raise CrcError. -/
def Obligations.SingleBitFlipIsCrcError : Prop :=
  ∀ (x : List Byte) (k : Nat) (j : Fin 8) (s : State), s.issuer = .host → k < x.length + 2 →
    ∃ t, exec (.crcCheck (flipBit (x ++ [lo8 (crc16 x), hi8 (crc16 x)]) k j)) s = .next t ∧
      OnlyCompletes s t (some .crcError) .nothing

/-! ### RTU codec -/

/-- R141: RTU.ENC, the six single-frame function codes and all others. -/
def Obligations.RtuEncBuildsEightByteFrame : Prop :=
  (∀ c : Command, c.op = 0x10 → decode c = .ok (.rtuEnc c.unit c.fc c.addr c.qv)) ∧
  ∀ (unit fc : Byte) (addr qv : Half) (s : State), s.issuer = .host →
    (1 ≤ fc.toNat ∧ fc.toNat ≤ 6 →
      ∃ t f, exec (.rtuEnc unit fc addr qv) s = .next t ∧ OnlyCompletes s t none (.bytes f) ∧ f.length = 8 ∧
        f.take 6 = [unit, fc, hi8 addr, lo8 addr, hi8 qv, lo8 qv] ∧
        f.drop 6 = [lo8 (crc16 (f.take 6)), hi8 (crc16 (f.take 6))]) ∧
    (¬ (1 ≤ fc.toNat ∧ fc.toNat ≤ 6) →
      ∃ t, exec (.rtuEnc unit fc addr qv) s = .next t ∧ OnlyCompletes s t (some .protocolError) .nothing)

/-- R142: RTU.ENCWC, with the payload bit by bit: element k is bit k mod 8 of payload byte k / 8, padding is 0. -/
def Obligations.RtuEncwcBuildsWriteCoilsFrame : Prop :=
  (∀ c : Command, c.op = 0x11 → decode c = .ok (.rtuEncwc c.unit c.addr c.bits)) ∧
  ∀ (unit : Byte) (addr : Half) (x : List Bool) (s : State), s.issuer = .host →
    (x.length ≤ 2040 →
      ∃ t p, exec (.rtuEncwc unit addr x) s = .next t ∧
        p.length = (x.length + 7) / 8 ∧
        (∀ k, k < 8 * p.length → packedBit p k = x.getD k false) ∧
        OnlyCompletes s t none (.bytes (crcAppend ([unit, 0x0F, hi8 addr, lo8 addr,
          hi8 (BitVec.ofNat 16 x.length), lo8 (BitVec.ofNat 16 x.length), BitVec.ofNat 8 p.length] ++ p)))) ∧
    (2040 < x.length →
      ∃ t, exec (.rtuEncwc unit addr x) s = .next t ∧ OnlyCompletes s t (some .formatError) .nothing)

/-- R143: RTU.ENCWR, with the payload byte by byte, high byte first. -/
def Obligations.RtuEncwrBuildsWriteRegistersFrame : Prop :=
  (∀ c : Command, c.op = 0x12 → decode c = .ok (.rtuEncwr c.unit c.addr c.regs)) ∧
  ∀ (unit : Byte) (addr : Half) (x : List Half) (s : State), s.issuer = .host →
    (x.length ≤ 127 →
      ∃ t p, exec (.rtuEncwr unit addr x) s = .next t ∧
        p.length = 2 * x.length ∧
        (∀ k, k < x.length → byteAt p (2 * k) = hi8 (x.getD k 0) ∧ byteAt p (2 * k + 1) = lo8 (x.getD k 0)) ∧
        OnlyCompletes s t none (.bytes (crcAppend ([unit, 0x10, hi8 addr, lo8 addr,
          hi8 (BitVec.ofNat 16 x.length), lo8 (BitVec.ofNat 16 x.length), BitVec.ofNat 8 p.length] ++ p)))) ∧
    (127 < x.length →
      ∃ t, exec (.rtuEncwr unit addr x) s = .next t ∧ OnlyCompletes s t (some .formatError) .nothing)

/-- R150: RTU.DEC, its checks in their order, on every byte sequence. -/
def Obligations.RtuDecChecksInOrder : Prop :=
  (∀ c : Command, c.op = 0x13 → decode c = .ok (.rtuDec c.bytes)) ∧
  ∀ (f : List Byte) (s : State), s.issuer = .host →
    (f.length < 5 →
      ∃ t, exec (.rtuDec f) s = .next t ∧ OnlyCompletes s t (some .formatError) .nothing) ∧
    (5 ≤ f.length → crc16 (f.take (f.length - 2)) ≠ be16 (byteAt f (f.length - 1)) (byteAt f (f.length - 2)) →
      ∃ t, exec (.rtuDec f) s = .next t ∧ OnlyCompletes s t (some .crcError) .nothing) ∧
    (5 ≤ f.length → crc16 (f.take (f.length - 2)) = be16 (byteAt f (f.length - 1)) (byteAt f (f.length - 2)) →
      f.length < 5 + (byteAt f 2).toNat →
      ∃ t, exec (.rtuDec f) s = .next t ∧ OnlyCompletes s t (some .formatError) .nothing) ∧
    (5 + (byteAt f 2).toNat ≤ f.length →
      crc16 (f.take (f.length - 2)) = be16 (byteAt f (f.length - 1)) (byteAt f (f.length - 2)) →
      ∃ t, exec (.rtuDec f) s = .next t ∧
        OnlyCompletes s t none (.bytes ((f.drop 3).take (byteAt f 2).toNat)))

/-- R153: a response frame built with CRC.APPEND decodes to its payload, and with any one bit flipped raises CrcError. -/
def Obligations.RtuRoundTripAndBitFlip : Prop :=
  ∀ (unit fc : Byte) (p : List Byte) (s : State), s.issuer = .host → p.length ≤ 255 →
    (∃ t, exec (.rtuDec (crcAppend ([unit, fc, BitVec.ofNat 8 p.length] ++ p))) s = .next t ∧
      OnlyCompletes s t none (.bytes p)) ∧
    (∀ (k : Nat) (j : Fin 8), k < p.length + 5 →
      ∃ t, exec (.rtuDec (flipBit (crcAppend ([unit, fc, BitVec.ofNat 8 p.length] ++ p)) k j)) s = .next t ∧
        OnlyCompletes s t (some .crcError) .nothing)

/-- R152: how RTU.DEC reads a write echo and a slave exception response that carry a correct CRC. -/
def Obligations.RtuDecOfEchoAndException : Prop :=
  ∀ (unit fc : Byte) (addr v : Half) (e : Byte) (s : State), s.issuer = .host →
    ((hi8 addr).toNat ≤ 3 →
      ∃ t, exec (.rtuDec (crcAppend [unit, fc, hi8 addr, lo8 addr, hi8 v, lo8 v])) s = .next t ∧
        OnlyCompletes s t none (.bytes ([lo8 addr, hi8 v, lo8 v].take (hi8 addr).toNat))) ∧
    (4 ≤ (hi8 addr).toNat →
      ∃ t, exec (.rtuDec (crcAppend [unit, fc, hi8 addr, lo8 addr, hi8 v, lo8 v])) s = .next t ∧
        OnlyCompletes s t (some .formatError) .nothing) ∧
    (1 ≤ e.toNat →
      ∃ t, exec (.rtuDec (crcAppend [unit, fc ||| 0x80, e])) s = .next t ∧
        OnlyCompletes s t (some .formatError) .nothing)

/-- R160 and R161: PACK.COILS and UNPACK.COILS, bit by bit. -/
def Obligations.CoilPackingIsLsbFirst : Prop :=
  (∀ c : Command, c.op = 0x14 → decode c = .ok (.packCoils c.bits)) ∧
  (∀ c : Command, c.op = 0x15 → decode c = .ok (.unpackCoils c.bytes c.n)) ∧
  ∀ s : State, s.issuer = .host →
    (∀ x : List Bool, ∃ t p, exec (.packCoils x) s = .next t ∧ OnlyCompletes s t none (.bytes p) ∧
      p.length = (x.length + 7) / 8 ∧ ∀ k, k < 8 * p.length → packedBit p k = x.getD k false) ∧
    (∀ (p : List Byte) (n : Half), n.toNat ≤ 8 * p.length →
      ∃ t x, exec (.unpackCoils p n) s = .next t ∧ OnlyCompletes s t none (.bits x) ∧
        x.length = n.toNat ∧ ∀ k, k < n.toNat → x.getD k false = packedBit p k) ∧
    (∀ (p : List Byte) (n : Half), 8 * p.length < n.toNat →
      ∃ t, exec (.unpackCoils p n) s = .next t ∧ OnlyCompletes s t (some .formatError) .nothing)

/-- R162 and R163: PACK.REGS and UNPACK.REGS, byte by byte. -/
def Obligations.RegisterPackingIsBigEndian : Prop :=
  (∀ c : Command, c.op = 0x16 → decode c = .ok (.packRegs c.regs)) ∧
  (∀ c : Command, c.op = 0x17 → decode c = .ok (.unpackRegs c.bytes)) ∧
  ∀ s : State, s.issuer = .host →
    (∀ x : List Half, ∃ t p, exec (.packRegs x) s = .next t ∧ OnlyCompletes s t none (.bytes p) ∧
      p.length = 2 * x.length ∧
      ∀ k, k < x.length → byteAt p (2 * k) = hi8 (x.getD k 0) ∧ byteAt p (2 * k + 1) = lo8 (x.getD k 0)) ∧
    (∀ p : List Byte, p.length % 2 = 0 →
      ∃ t x, exec (.unpackRegs p) s = .next t ∧ OnlyCompletes s t none (.regs x) ∧
        x.length = p.length / 2 ∧
        ∀ k, k < p.length / 2 → x.getD k 0 = be16 (byteAt p (2 * k)) (byteAt p (2 * k + 1))) ∧
    (∀ p : List Byte, p.length % 2 = 1 →
      ∃ t, exec (.unpackRegs p) s = .next t ∧ OnlyCompletes s t (some .formatError) .nothing)

/-- R164: packing and unpacking give the list back. -/
def Obligations.PackingRoundTrips : Prop :=
  ∀ s : State, s.issuer = .host →
    (∀ (x : List Bool) (n : Half), n.toNat = x.length →
      ∃ t p u, exec (.packCoils x) s = .next t ∧ t.completion = some ⟨.host, none, .bytes p⟩ ∧
        p.length = (x.length + 7) / 8 ∧
        exec (.unpackCoils p n) t = .next u ∧ u.completion = some ⟨.host, none, .bits x⟩) ∧
    (∀ x : List Half,
      ∃ t p u, exec (.packRegs x) s = .next t ∧ t.completion = some ⟨.host, none, .bytes p⟩ ∧
        exec (.unpackRegs p) t = .next u ∧ u.completion = some ⟨.host, none, .regs x⟩)

/-! ### MBAP codec -/

/-- R171: MBAP.DEC; no header field but unit id and function code is read, and no byte from offset 12 on. -/
def Obligations.MbapDecReadsFixedFields : Prop :=
  (∀ c : Command, c.op = 0x20 → decode c = .ok (.mbapDec c.bytes)) ∧
  ∀ s : State, s.issuer = .host →
    (∀ q : List Byte, q.length < 12 →
      ∃ t, exec (.mbapDec q) s = .next t ∧ OnlyCompletes s t (some .formatError) .nothing) ∧
    (∀ (x0 x1 x2 x3 x4 x5 unit fc aH aL qH qL : Byte) (rest : List Byte),
      ∃ t, exec (.mbapDec ([x0, x1, x2, x3, x4, x5, unit, fc, aH, aL, qH, qL] ++ rest)) s = .next t ∧
        OnlyCompletes s t none (.fields unit fc (be16 aH aL) (be16 qH qL)))

/-- R174 and R175: MBAP.ENC; the length field is 3 + len(P), one more than the bytes that follow it. -/
def Obligations.MbapEncBuildsResponse : Prop :=
  (∀ c : Command, c.op = 0x21 → decode c = .ok (.mbapEnc c.bytes c.fc c.payload)) ∧
  ∀ (q : List Byte) (fc : Byte) (p : List Byte) (s : State), s.issuer = .host →
    (q.length < 7 ∨ 65532 < p.length →
      ∃ t, exec (.mbapEnc q fc p) s = .next t ∧ OnlyCompletes s t (some .formatError) .nothing) ∧
    (7 ≤ q.length → p.length ≤ 65532 →
      ∃ t r, exec (.mbapEnc q fc p) s = .next t ∧ OnlyCompletes s t none (.bytes r) ∧
        r.take 4 = q.take 4 ∧
        (be16 (byteAt r 4) (byteAt r 5)).toNat = 3 + p.length ∧
        byteAt r 6 = byteAt q 6 ∧ byteAt r 7 = fc ∧ r.drop 8 = p ∧ (r.drop 6).length = 2 + p.length)

/-- R176: MBAP.ERR; and inside SRV.TX, where an error response is the same frame, STATUS of the server port holds the
error kind that caused it. -/
def Obligations.MbapErrBuildsErrorFrame : Prop :=
  (∀ c : Command, c.op = 0x22 → decode c = .ok (.mbapErr c.bytes c.fc)) ∧
  (∀ (q : List Byte) (fc : Byte) (s : State), s.issuer = .host →
    (q.length < 7 →
      ∃ t, exec (.mbapErr q fc) s = .next t ∧ OnlyCompletes s t (some .formatError) .nothing) ∧
    (7 ≤ q.length →
      ∃ t, exec (.mbapErr q fc) s = .next t ∧
        OnlyCompletes s t none (.bytes (q.take 4 ++ [0x00, 0x03, byteAt q 6, fc ||| 0x80, 0x01])))) ∧
  (∀ (q : List Byte) (p : Nat) (s t : State) (k : ErrKind) (f : List Byte), s.issuer = .srv p →
    (s.statusOf (.srv p)).isSome = true → exec (.srvTx q) s = .next t →
    t.completion = some ⟨.srv p, some k, .response (some f)⟩ →
    f = q.take 4 ++ [0x00, 0x03, byteAt q 6, byteAt q 7 ||| 0x80, 0x01] ∧ t.statusOf (.srv p) = some (errCode k))

/-- R177: decoding a normal response of 12 bytes or more gives back the request's unit id and the function code; the
error response carries the request's transaction id. -/
def Obligations.MbapDecodeOfEncodedResponse : Prop :=
  ∀ (q : List Byte) (fc : Byte) (p : List Byte) (s : State), s.issuer = .host →
    12 ≤ q.length → p.length ≤ 65532 →
    (∃ t r, exec (.mbapEnc q fc p) s = .next t ∧ t.completion = some ⟨.host, none, .bytes r⟩ ∧
      r.take 4 = q.take 4 ∧ byteAt r 6 = byteAt q 6 ∧ byteAt r 7 = fc ∧ r.drop 8 = p ∧
      (12 ≤ r.length →
        ∃ u a n, exec (.mbapDec r) t = .next u ∧ u.completion = some ⟨.host, none, .fields (byteAt q 6) fc a n⟩)) ∧
    (∃ t r, exec (.mbapErr q fc) s = .next t ∧ t.completion = some ⟨.host, none, .bytes r⟩ ∧ r.take 2 = q.take 2)

/-! ### Data store -/

/-- R191: STORE.GET; the bank selectors are those of R24: 0 COIL, 1 DISC, 2 HOLD, 3 INPT. -/
def Obligations.StoreGetReadsElement : Prop :=
  (∀ c : Command, c.op = 0x30 →
    (c.b = 0 → decode c = .ok (.storeGet (.bit .coil) c.i)) ∧
    (c.b = 1 → decode c = .ok (.storeGet (.bit .disc) c.i)) ∧
    (c.b = 2 → decode c = .ok (.storeGet (.reg .hold) c.i)) ∧
    (c.b = 3 → decode c = .ok (.storeGet (.reg .inpt) c.i))) ∧
  ∀ (b : Bank) (i : Half) (s : State), s.issuer = .host →
    (i.toNat < s.cfg.cap b →
      ∃ t, exec (.storeGet b i) s = .next t ∧ OnlyCompletes s t none (.element (readElement s b i.toNat))) ∧
    (s.cfg.cap b ≤ i.toNat →
      ∃ t, exec (.storeGet b i) s = .next t ∧ OnlyCompletes s t (some .outOfRangeError) .nothing)

/-- R192: STORE.SET, with its frame over every element of every bank, the bank selectors being those of R24; and no
other instruction changes an element of DISC or INPT. -/
def Obligations.StoreSetWritesElement : Prop :=
  (∀ c : Command, c.op = 0x31 →
    (c.b = 0 → decode c = .ok (.storeSet c.i (.bit .coil c.vBit))) ∧
    (c.b = 1 → decode c = .ok (.storeSet c.i (.bit .disc c.vBit))) ∧
    (c.b = 2 → decode c = .ok (.storeSet c.i (.reg .hold c.vReg))) ∧
    (c.b = 3 → decode c = .ok (.storeSet c.i (.reg .inpt c.vReg)))) ∧
  (∀ (i : Half) (v : Element) (s : State), s.issuer = .host →
    (i.toNat < s.cfg.cap v.bank →
      ∃ t, exec (.storeSet i v) s = .next t ∧ Completes s t none .nothing ∧ t.crc = s.crc ∧
        readElement t v.bank i.toNat = v ∧ StoreKeptOutside s t v.bank i.toNat 1) ∧
    (s.cfg.cap v.bank ≤ i.toNat →
      ∃ t, exec (.storeSet i v) s = .next t ∧ OnlyCompletes s t (some .outOfRangeError) .nothing)) ∧
  (∀ (i : Half) (b : Bank) (s t : State), s.issuer = .host → i.toNat < s.cfg.cap b →
    exec (.storeSet i (readElement s b i.toNat)) s = .next t → StoreKept s t) ∧
  (∀ (j : Instr) (s t : State), (∀ i v, j ≠ .storeSet i v) → exec j s = .next t →
    ∀ i, readBit t .disc i = readBit s .disc i ∧ readReg t .inpt i = readReg s .inpt i)

/-- R197, first law: run from a STORE.SET in range, through any list of operations of any agents (none, one or many,
of H or of server ports), to a STORE.GET of the element; if every operation between them that names the element fails
or leaves it at v, and so in particular if none writes it, the STORE.GET returns v. The list of inputs is the model's
own (log 1). -/
def Obligations.StoreSetThenGet : Prop :=
  ∀ (s : State) (cs cg : Command) (between after : List Input) (i : Half) (v : Element),
    s.pending = .op .host cs :: (between ++ .op .host cg :: after) →
    decode cs = .ok (.storeSet i v) → decode cg = .ok (.storeGet v.bank i) → i.toNat < s.cfg.cap v.bank →
    (∀ x ∈ between, x ≠ .reset ∧ issuable s.cfg x = true) →
    (∀ (k : Nat) (a : Agent) (c : Command) (j : Instr) (u : State) (r : Result),
      between[k]? = some (.op a c) → decode c = .ok j → namesElement a j v.bank i.toNat = true →
      Host.Core.run Sys2Proof.core (k + 2) s = .next u → u.completion = some ⟨a, none, r⟩ →
      readElement u v.bank i.toNat = v) →
    ∃ t : State, Host.Core.run Sys2Proof.core (between.length + 2) s = .next t ∧
      t.completion = some ⟨.host, none, .element v⟩ ∧ t.pending = after

/-- The canonical form: two stores in canonical form under one configuration that read the same below the capacities
are the same data, so writing the value an element already holds leaves the memory unchanged (R192). The form is the
model's own (log 7). -/
def Obligations.CanonicalStoreIsItsReads : Prop :=
  (∀ s t : State, s.cfg = t.cfg → s.mem.wf s.cfg → t.mem.wf t.cfg →
    (∀ b i, i < s.cfg.cap b → readElement s b i = readElement t b i) → s.mem = t.mem) ∧
  (∀ (s t : State) (b : Bank) (i : Half), s.mem.wf s.cfg → s.issuer = .host → i.toNat < s.cfg.cap b →
    exec (.storeSet i (readElement s b i.toNat)) s = .next t → t.mem = s.mem)

/-! ### Request executor -/

/-- R212: a request below 8 bytes gets no response, one of 8 to 11 bytes the error frame; FormatError both times. And
no request whatever changes the store when it ends with an error kind. -/
def Obligations.ShortRequestsAreFormatErrors : Prop :=
  ∀ (q : List Byte) (p : Nat) (s : State), s.issuer = .srv p →
    (q.length < 8 →
      ∃ t, exec (.srvTx q) s = .next t ∧ OnlyCompletes s t (some .formatError) (.response none)) ∧
    (8 ≤ q.length → q.length < 12 →
      ∃ t, exec (.srvTx q) s = .next t ∧ OnlyCompletes s t (some .formatError)
        (.response (some (q.take 4 ++ [0x00, 0x03, byteAt q 6, byteAt q 7 ||| 0x80, 0x01])))) ∧
    (∀ (t : State) (k : ErrKind) (r : Result), exec (.srvTx q) s = .next t →
      t.completion = some ⟨.srv p, some k, r⟩ → StoreKept s t)

/-- R229: an illegal function code. -/
def Obligations.IllegalFunctionCodeIsProtocolError : Prop :=
  ∀ (q : List Byte) (p : Nat) (s : State), s.issuer = .srv p → 12 ≤ q.length →
    byteAt q 7 ∉ ([0x01, 0x02, 0x03, 0x04, 0x05, 0x06, 0x0F, 0x10] : List Byte) →
    ∃ t, exec (.srvTx q) s = .next t ∧ OnlyCompletes s t (some .protocolError)
      (.response (some (q.take 4 ++ [0x00, 0x03, byteAt q 6, byteAt q 7 ||| 0x80, 0x01])))

/-- R211 and R230: a request of 12 bytes or more with a legal function code is decoded to one of the eight
function-code instructions, that instruction carries the request's very bytes, and executing it is executing SRV.TX
of the request, in every state (log 9). -/
def Obligations.SrvTxIsItsFunctionInstruction : Prop :=
  ∀ q : List Byte, 12 ≤ q.length →
    byteAt q 7 ∈ ([0x01, 0x02, 0x03, 0x04, 0x05, 0x06, 0x0F, 0x10] : List Byte) →
    ∃ i, decode { op := 0x40, bytes := q } = .ok i ∧ requestFc i = some (byteAt q 7) ∧ i ≠ .srvTx q ∧
      (encode i).bytes = q ∧ ∀ s : State, exec i s = exec (.srvTx q) s

/-- SRV.TX of a request with a legal function code, whole (R211, R219 to R228): it succeeds with a normal response
exactly when the request's shape, value, range and size are acceptable, and otherwise completes with an error kind,
the error frame and no other effect. -/
def Obligations.SrvTxSucceedsExactlyOnAcceptableRequests : Prop :=
  ∀ (g : Fn) (h : MbapHeader) (a n : Half) (rest : List Byte) (p : Nat) (s : State), s.issuer = .srv p →
    let within (b : Bank) (k : Nat) : Prop := a.toNat < s.cfg.cap b ∧ a.toNat + k ≤ s.cfg.cap b
    let holds (need : Nat) : Prop := 1 + (byteAt rest 0).toNat ≤ rest.length ∧ (byteAt rest 0).toNat = need
    let acceptable : Prop :=
      match g with
      | .readCoils => within (.bit .coil) n.toNat ∧ n.toNat ≤ 2040
      | .readDiscreteInputs => within (.bit .disc) n.toNat ∧ n.toNat ≤ 2040
      | .readHoldingRegisters => within (.reg .hold) n.toNat ∧ n.toNat ≤ 127
      | .readInputRegisters => within (.reg .inpt) n.toNat ∧ n.toNat ≤ 127
      | .writeSingleCoil => (n = 0xFF00 ∨ n = 0x0000) ∧ within (.bit .coil) 1
      | .writeSingleRegister => within (.reg .hold) 1
      | .writeMultipleCoils => holds ((n.toNat + 7) / 8) ∧ within (.bit .coil) n.toNat
      | .writeMultipleRegisters => holds (2 * n.toNat) ∧ within (.reg .hold) n.toNat
    (acceptable → ∃ t r, exec (.srvTx (requestFrame h g.byte a n rest)) s = .next t ∧
      Completes s t none (.response (some (normalFrame h g.byte r))) ∧ t.crc = s.crc) ∧
    (¬ acceptable → ∃ t k, exec (.srvTx (requestFrame h g.byte a n rest)) s = .next t ∧
      OnlyCompletes s t (some k) (.response (some (errorFrame h g.byte))))

/-- R220 and R221: READ_COILS and READ_DISCRETE_INPUTS, the response bit by bit. -/
def Obligations.ReadBitsFunctionCodes : Prop :=
  ∀ (h : MbapHeader) (a n : Half) (rest : List Byte) (p : Nat) (s : State), s.issuer = .srv p →
  ∀ b ∈ [BitBank.coil, BitBank.disc],
    let i : Instr := match b with
      | .coil => .readCoils h a n rest
      | .disc => .readDiscreteInputs h a n rest
    let fc : Byte := match b with
      | .coil => 0x01
      | .disc => 0x02
    ((a.toNat < s.cfg.cap (.bit b) ∧ a.toNat + n.toNat ≤ s.cfg.cap (.bit b)) ∧ n.toNat ≤ 2040 →
      ∃ t data, exec i s = .next t ∧
        data.length = (n.toNat + 7) / 8 ∧
        (∀ k, k < 8 * data.length →
          packedBit data k = if k < n.toNat then readBit s b (a.toNat + k) else false) ∧
        OnlyCompletes s t none (.response (some (normalFrame h fc (BitVec.ofNat 8 data.length :: data))))) ∧
    (¬ ((a.toNat < s.cfg.cap (.bit b) ∧ a.toNat + n.toNat ≤ s.cfg.cap (.bit b)) ∧ n.toNat ≤ 2040) →
      ∃ t, exec i s = .next t ∧
        OnlyCompletes s t (some .outOfRangeError) (.response (some (errorFrame h fc))))

/-- R222 and R223: READ_HOLDING_REGISTERS and READ_INPUT_REGISTERS, the response byte by byte. -/
def Obligations.ReadRegistersFunctionCodes : Prop :=
  ∀ (h : MbapHeader) (a n : Half) (rest : List Byte) (p : Nat) (s : State), s.issuer = .srv p →
  ∀ b ∈ [RegBank.hold, RegBank.inpt],
    let i : Instr := match b with
      | .hold => .readHoldingRegisters h a n rest
      | .inpt => .readInputRegisters h a n rest
    let fc : Byte := match b with
      | .hold => 0x03
      | .inpt => 0x04
    ((a.toNat < s.cfg.cap (.reg b) ∧ a.toNat + n.toNat ≤ s.cfg.cap (.reg b)) ∧ n.toNat ≤ 127 →
      ∃ t data, exec i s = .next t ∧
        data.length = 2 * n.toNat ∧
        (∀ k, k < n.toNat →
          byteAt data (2 * k) = hi8 (readReg s b (a.toNat + k)) ∧
          byteAt data (2 * k + 1) = lo8 (readReg s b (a.toNat + k))) ∧
        OnlyCompletes s t none (.response (some (normalFrame h fc (BitVec.ofNat 8 data.length :: data))))) ∧
    (¬ ((a.toNat < s.cfg.cap (.reg b) ∧ a.toNat + n.toNat ≤ s.cfg.cap (.reg b)) ∧ n.toNat ≤ 127) →
      ∃ t, exec i s = .next t ∧
        OnlyCompletes s t (some .outOfRangeError) (.response (some (errorFrame h fc))))

/-- R224 and R226: WRITE_SINGLE_COIL. -/
def Obligations.WriteSingleCoilFunctionCode : Prop :=
  ∀ (h : MbapHeader) (a v : Half) (rest : List Byte) (p : Nat) (s : State), s.issuer = .srv p →
    ((v = 0xFF00 ∨ v = 0x0000) → a.toNat < s.cfg.cap (.bit .coil) →
      ∃ t, exec (.writeSingleCoil h a v rest) s = .next t ∧
        Completes s t none (.response (some (normalFrame h 0x05 [hi8 a, lo8 a, hi8 v, lo8 v]))) ∧
        t.crc = s.crc ∧ readBit t .coil a.toNat = decide (v = 0xFF00) ∧
        StoreKeptOutside s t (.bit .coil) a.toNat 1) ∧
    ((v = 0xFF00 ∨ v = 0x0000) → s.cfg.cap (.bit .coil) ≤ a.toNat →
      ∃ t, exec (.writeSingleCoil h a v rest) s = .next t ∧
        OnlyCompletes s t (some .outOfRangeError) (.response (some (errorFrame h 0x05)))) ∧
    (v ≠ 0xFF00 → v ≠ 0x0000 →
      ∃ t, exec (.writeSingleCoil h a v rest) s = .next t ∧
        OnlyCompletes s t (some .formatError) (.response (some (errorFrame h 0x05))))

/-- R225: WRITE_SINGLE_REGISTER. -/
def Obligations.WriteSingleRegisterFunctionCode : Prop :=
  ∀ (h : MbapHeader) (a v : Half) (rest : List Byte) (p : Nat) (s : State), s.issuer = .srv p →
    (a.toNat < s.cfg.cap (.reg .hold) →
      ∃ t, exec (.writeSingleRegister h a v rest) s = .next t ∧
        Completes s t none (.response (some (normalFrame h 0x06 [hi8 a, lo8 a, hi8 v, lo8 v]))) ∧
        t.crc = s.crc ∧ readReg t .hold a.toNat = v ∧ StoreKeptOutside s t (.reg .hold) a.toNat 1) ∧
    (s.cfg.cap (.reg .hold) ≤ a.toNat →
      ∃ t, exec (.writeSingleRegister h a v rest) s = .next t ∧
        OnlyCompletes s t (some .outOfRangeError) (.response (some (errorFrame h 0x06))))

/-- R227: WRITE_MULTIPLE_COILS; `rest` is the request from offset 12 on: byte count, payload, ignored bytes. -/
def Obligations.WriteMultipleCoilsFunctionCode : Prop :=
  ∀ (h : MbapHeader) (a n : Half) (rest : List Byte) (p : Nat) (s : State), s.issuer = .srv p →
    (1 + (byteAt rest 0).toNat ≤ rest.length → (byteAt rest 0).toNat = (n.toNat + 7) / 8 →
      a.toNat < s.cfg.cap (.bit .coil) → a.toNat + n.toNat ≤ s.cfg.cap (.bit .coil) →
      ∃ t, exec (.writeMultipleCoils h a n rest) s = .next t ∧
        Completes s t none (.response (some (normalFrame h 0x0F [hi8 a, lo8 a, hi8 n, lo8 n]))) ∧
        t.crc = s.crc ∧
        (∀ k, k < n.toNat → readBit t .coil (a.toNat + k) = packedBit (rest.drop 1) k) ∧
        StoreKeptOutside s t (.bit .coil) a.toNat n.toNat) ∧
    (1 + (byteAt rest 0).toNat ≤ rest.length → (byteAt rest 0).toNat = (n.toNat + 7) / 8 →
      ¬ (a.toNat < s.cfg.cap (.bit .coil) ∧ a.toNat + n.toNat ≤ s.cfg.cap (.bit .coil)) →
      ∃ t, exec (.writeMultipleCoils h a n rest) s = .next t ∧
        OnlyCompletes s t (some .outOfRangeError) (.response (some (errorFrame h 0x0F)))) ∧
    (¬ (1 + (byteAt rest 0).toNat ≤ rest.length ∧ (byteAt rest 0).toNat = (n.toNat + 7) / 8) →
      ∃ t, exec (.writeMultipleCoils h a n rest) s = .next t ∧
        OnlyCompletes s t (some .formatError) (.response (some (errorFrame h 0x0F))))

/-- R228: WRITE_MULTIPLE_REGISTERS; `rest` is the request from offset 12 on. -/
def Obligations.WriteMultipleRegistersFunctionCode : Prop :=
  ∀ (h : MbapHeader) (a n : Half) (rest : List Byte) (p : Nat) (s : State), s.issuer = .srv p →
    (1 + (byteAt rest 0).toNat ≤ rest.length → (byteAt rest 0).toNat = 2 * n.toNat →
      a.toNat < s.cfg.cap (.reg .hold) → a.toNat + n.toNat ≤ s.cfg.cap (.reg .hold) →
      ∃ t, exec (.writeMultipleRegisters h a n rest) s = .next t ∧
        Completes s t none (.response (some (normalFrame h 0x10 [hi8 a, lo8 a, hi8 n, lo8 n]))) ∧
        t.crc = s.crc ∧
        (∀ k, k < n.toNat →
          readReg t .hold (a.toNat + k) = be16 (byteAt rest (1 + 2 * k)) (byteAt rest (2 + 2 * k))) ∧
        StoreKeptOutside s t (.reg .hold) a.toNat n.toNat) ∧
    (1 + (byteAt rest 0).toNat ≤ rest.length → (byteAt rest 0).toNat = 2 * n.toNat →
      ¬ (a.toNat < s.cfg.cap (.reg .hold) ∧ a.toNat + n.toNat ≤ s.cfg.cap (.reg .hold)) →
      ∃ t, exec (.writeMultipleRegisters h a n rest) s = .next t ∧
        OnlyCompletes s t (some .outOfRangeError) (.response (some (errorFrame h 0x10)))) ∧
    (¬ (1 + (byteAt rest 0).toNat ≤ rest.length ∧ (byteAt rest 0).toNat = 2 * n.toNat) →
      ∃ t, exec (.writeMultipleRegisters h a n rest) s = .next t ∧
        OnlyCompletes s t (some .formatError) (.response (some (errorFrame h 0x10))))

/-- R173, R211, R212, R216, R219: every request of 8 bytes or more completes with a response that echoes the request's first four
bytes and unit id; a success carries the request's function code, and every error, whatever its kind, is the one error
frame with exception code 0x01. No response is longer than 264 bytes. -/
def Obligations.EveryRequestWithFunctionCodeIsAnswered : Prop :=
  ∀ (q : List Byte) (p : Nat) (s : State), s.issuer = .srv p → 8 ≤ q.length →
    ∃ t e r, exec (.srvTx q) s = .next t ∧ t.completion = some ⟨.srv p, e, .response (some r)⟩ ∧
      r.take 4 = q.take 4 ∧ byteAt r 6 = byteAt q 6 ∧ 8 ≤ r.length ∧ r.length ≤ 264 ∧
      (e = none → byteAt r 7 = byteAt q 7 ∧
        (be16 (byteAt r 4) (byteAt r 5)).toNat = 3 + (r.length - 8)) ∧
      (e ≠ none → r = q.take 4 ++ [0x00, 0x03, byteAt q 6, byteAt q 7 ||| 0x80, 0x01])

/-- A write by one port is seen by a read of any other: the registers a successful WRITE_MULTIPLE_REGISTERS carried
come back, byte for byte, in the next READ_HOLDING_REGISTERS of the same range (R62, R197). -/
def Obligations.RegistersWrittenAreReadByEveryPort : Prop :=
  ∀ (h h' : MbapHeader) (a n : Half) (rest rest' : List Byte) (p p' : Nat) (s t : State) (r : Result),
    s.issuer = .srv p → exec (.writeMultipleRegisters h a n rest) s = .next t →
    t.completion = some ⟨.srv p, none, r⟩ →
    ∃ u, exec (.readHoldingRegisters h' a n rest') { t with issuer := .srv p' } = .next u ∧
      u.completion = some ⟨.srv p', none,
        .response (some (normalFrame h' 0x03 (BitVec.ofNat 8 (2 * n.toNat) :: (rest.drop 1).take (2 * n.toNat))))⟩

/-- R172 and R214: the transaction id, protocol id, length field and unit id select nothing: with any other header the
request has the same effect on the store and every STATUS and the same outcome. -/
def Obligations.HeaderSelectsNothing : Prop :=
  ∀ (g : Fn) (h h' : MbapHeader) (a n : Half) (rest : List Byte) (p : Nat) (s t : State), s.issuer = .srv p →
    exec (g.instr h a n rest) s = .next t →
    ∃ t' e r r', exec (g.instr h' a n rest) s = .next t' ∧ t'.mem = t.mem ∧ t'.crc = t.crc ∧
      t'.statusH = t.statusH ∧ t'.statusS = t.statusS ∧
      t.completion = some ⟨.srv p, e, .response (some r)⟩ ∧
      t'.completion = some ⟨.srv p, e, .response (some r')⟩ ∧
      r'.length = r.length ∧ r'.drop 7 = r.drop 7

/-! ### The whole machine -/

/-- Every step from a good state leads to a good state. -/
def Obligations.StepKeepsInvariant : Prop :=
  ∀ s t : State, Inv s → step s = .next t → Inv t

/-- The state after reset is good, for every legal configuration, and so for the default one, whose values are the
model's choice (log 5). -/
def Obligations.ResetSatisfiesInvariant : Prop :=
  (∀ cfg : Config, configWf cfg → Inv (State.resetWith cfg)) ∧ Inv State.reset

/-- R270: what the reset event leaves, for every configuration and whatever the state was. -/
def Obligations.ResetSetsWholeState : Prop :=
  (∀ (s : State) (rest : List Input), s.pending = .reset :: rest →
    ∃ t, step s = .next t ∧ t.crc = 0xFFFF ∧
      (∀ a, hasAgent s.cfg a = true → t.statusOf a = some 0) ∧
      (∀ b i, readBit t b i = initBit s.cfg b i) ∧ (∀ b i, readReg t b i = initReg s.cfg b i) ∧
      t.cfg = s.cfg) ∧
  (∀ cfg : Config, (State.resetWith cfg).crc = 0xFFFF ∧
    (∀ a, hasAgent cfg a = true → (State.resetWith cfg).statusOf a = some 0) ∧
    (∀ b i, readBit (State.resetWith cfg) b i = initBit cfg b i) ∧
    (∀ b i, readReg (State.resetWith cfg) b i = initReg cfg b i))

/-- R196 and R248: an operation that reports an error changed nothing but STATUS of its own agent: the store is the
same data, CRC is the same. -/
def Obligations.FailedOperationHasNoEffect : Prop :=
  ∀ (i : Instr) (s t : State) (k : ErrKind) (r : Result),
    exec i s = .next t → t.completion = some ⟨s.issuer, some k, r⟩ →
    t.mem = s.mem ∧ OnlyCompletes s t (some k) r

/-- R22 and R25: only CRC.INIT and CRC.UPDATE on H change CRC; an element of DISC or INPT changes only under STORE.SET
on H, one of COIL only under that or function codes 0x05 and 0x0F on a server port, one of HOLD only under that or
0x06 and 0x10. -/
def Obligations.WriteRightsFollowThePort : Prop :=
  ∀ (i : Instr) (s t : State), exec i s = .next t →
    (t.crc ≠ s.crc → s.issuer = .host ∧ (i = .crcInit ∨ ∃ d, i = .crcUpdate d)) ∧
    (∀ b j, readElement t b j ≠ readElement s b j →
      (s.issuer = .host ∧ ∃ k v, i = .storeSet k v ∧ v.bank = b ∧ k.toNat = j) ∨
      ((∃ p, s.issuer = .srv p) ∧ b = .bit .coil ∧ (requestFc i = some 0x05 ∨ requestFc i = some 0x0F)) ∨
      ((∃ p, s.issuer = .srv p) ∧ b = .reg .hold ∧ (requestFc i = some 0x06 ∨ requestFc i = some 0x10)))

/-- R23, R26, R240, R247: an operation always completes, writes the STATUS and the completion of its own agent, no
other agent's STATUS and no part of the configuration; where the agent's port exists, the STATUS value is 0 for OK and 1
to 4 for the four error kinds, as the error table numbers them. -/
def Obligations.OperationWritesOnlyItsOwnStatus : Prop :=
  ∀ (i : Instr) (s : State), ∃ t e r, exec i s = .next t ∧ Completes s t e r ∧
    ((s.statusOf s.issuer).isSome = true →
      (e = none → t.statusOf s.issuer = some 0x00) ∧
      (e = some .formatError → t.statusOf s.issuer = some 0x01) ∧
      (e = some .outOfRangeError → t.statusOf s.issuer = some 0x02) ∧
      (e = some .protocolError → t.statusOf s.issuer = some 0x03) ∧
      (e = some .crcError → t.statusOf s.issuer = some 0x04))

/-- R28: STATUS is never an input; nor is the last completion, which is the model's own field (log 2): that clause is
the model's. Two states that differ in nothing else give the same outcome, the same store and the same CRC. -/
def Obligations.StatusIsNeverAnInput : Prop :=
  ∀ (i : Instr) (s : State) (h : Byte) (ss : List Byte) (c : Option Completion),
    ∃ t t', exec i s = .next t ∧
      exec i { s with statusH := h, statusS := ss, completion := c } = .next t' ∧
      t'.completion = t.completion ∧ t'.mem = t.mem ∧ t'.crc = t.crc

/-- R27 and R68: the inputs are taken one by one in their order, each in one step; after k + 1 steps the k-th has
completed for its agent. The list of inputs, and that a reset leaves the rest of it, are the model's own (log 1,
log 13). -/
def Obligations.EveryIssuedOperationCompletesInOrder : Prop :=
  ∀ s : State, (∀ x ∈ s.pending, issuable s.cfg x = true) →
    ∀ (k : Nat) (x : Input), s.pending[k]? = some x →
      ∃ t : State, Host.Core.run Sys2Proof.core (k + 1) s = .next t ∧ t.pending = s.pending.drop (k + 1) ∧
        ∀ a c, x = .op a c → ∃ e r, t.completion = some ⟨a, e, r⟩

/-- R240: which operations can report each error kind; TimeoutError is never reported (R245). -/
def Obligations.ErrorKindsHaveTheirOperations : Prop :=
  ∀ (i : Instr) (s t : State) (k : ErrKind) (r : Result),
    exec i s = .next t → t.completion = some ⟨s.issuer, some k, r⟩ →
    (k = .crcError → (∃ f, i = .crcCheck f) ∨ ∃ f, i = .rtuDec f) ∧
    (k = .outOfRangeError → (∃ b j, i = .storeGet b j) ∨ (∃ j v, i = .storeSet j v) ∨ isServerInstr i = true) ∧
    (k = .protocolError → (∃ u fc a v, i = .rtuEnc u fc a v) ∨ isServerInstr i = true ∨ s.issuer ≠ .host) ∧
    (k = .formatError → (∃ f, i = .crcCheck f) ∨ (∃ u a x, i = .rtuEncwc u a x) ∨ (∃ u a x, i = .rtuEncwr u a x) ∨
      (∃ f, i = .rtuDec f) ∨ (∃ x n, i = .unpackCoils x n) ∨ (∃ x, i = .unpackRegs x) ∨ (∃ q, i = .mbapDec q) ∨
      (∃ q fc x, i = .mbapEnc q fc x) ∨ (∃ q fc, i = .mbapErr q fc) ∨ isServerInstr i = true) ∧
    k ≠ .timeoutError
end

