-- ==== Sys2Proof/Laws/Cells.lean ====
section
/-! SUPPORT. The sparse cells: read after write, and that every operation keeps the canonical form. -/

namespace Sys2Proof.Machine

variable {α : Type}

theorem cellGet_filter_ne (dflt : Nat → α) (l : Cells α) (i j : Nat) (h : j ≠ i) :
    cellGet dflt (l.filter (fun p => !(p.1 == i))) j = cellGet dflt l j := by
  induction l with
  | nil => rfl
  | cons p l ih =>
    obtain ⟨k, v⟩ := p
    by_cases hk : k = i
    · subst hk
      simp [cellGet, h, ih]
    · simp [cellGet, hk, ih]

theorem cellGet_filter_self (dflt : Nat → α) (l : Cells α) (i : Nat) :
    cellGet dflt (l.filter (fun p => !(p.1 == i))) i = dflt i := by
  induction l with
  | nil => rfl
  | cons p l ih =>
    obtain ⟨k, v⟩ := p
    by_cases hk : k = i
    · subst hk
      simpa using ih
    · simp [cellGet, hk, Ne.symm hk, ih]

theorem cellGet_insert (dflt : Nat → α) (l : Cells α) (i j : Nat) (v : α) (h : ∀ p ∈ l, p.1 ≠ i) :
    cellGet dflt (cellInsert i v l) j = if j = i then v else cellGet dflt l j := by
  induction l with
  | nil => simp [cellInsert, cellGet]
  | cons p l ih =>
    obtain ⟨k, w⟩ := p
    have hk : k ≠ i := h (k, w) (by simp)
    have ih' := ih fun p hp => h p (List.mem_cons_of_mem _ hp)
    by_cases hik : i < k
    · simp [cellInsert, hik, cellGet]
    · simp only [cellInsert, hik, if_false, cellGet, ih']
      split
      · next hj => subst hj; simp [hk]
      · rfl

/-- Read after write: the value at the written index, every other index as before. -/
theorem cellGet_cellSet [DecidableEq α] (dflt : Nat → α) (l : Cells α) (i j : Nat) (v : α) :
    cellGet dflt (cellSet dflt l i v) j = if j = i then v else cellGet dflt l j := by
  have hne : ∀ p ∈ l.filter (fun p => !(p.1 == i)), p.1 ≠ i := by
    intro p hp
    simpa using (List.mem_filter.mp hp).2
  unfold cellSet
  by_cases hv : v = dflt i
  · rw [if_pos hv]
    by_cases hj : j = i
    · subst hj; simp [cellGet_filter_self, hv]
    · simp [cellGet_filter_ne _ _ _ _ hj, hj]
  · rw [if_neg hv, cellGet_insert _ _ _ _ _ hne]
    by_cases hj : j = i
    · simp [hj]
    · simp [hj, cellGet_filter_ne _ _ _ _ hj]

/-- Read after a ranged write. -/
theorem cellGet_cellSetRange [DecidableEq α] (dflt : Nat → α) (x : List α) :
    ∀ (l : Cells α) (i j : Nat), cellGet dflt (cellSetRange dflt l i x) j =
      if h : i ≤ j ∧ j - i < x.length then x[j - i]'h.2 else cellGet dflt l j := by
  induction x with
  | nil => intro l i j; simp [cellSetRange]
  | cons v x ih =>
    intro l i j
    rw [cellSetRange, ih, cellGet_cellSet]
    by_cases h1 : i + 1 ≤ j ∧ j - (i + 1) < x.length
    · have h2 : i ≤ j ∧ j - i < (v :: x).length := by simp only [List.length_cons]; omega
      rw [dif_pos h1, dif_pos h2]
      have : j - i = (j - (i + 1)) + 1 := by omega
      simp [this]
    · rw [dif_neg h1]
      by_cases hj : j = i
      · subst hj; simp
      · have h2 : ¬ (i ≤ j ∧ j - i < (v :: x).length) := by simp only [List.length_cons]; omega
        rw [dif_neg h2, if_neg hj]

theorem mem_cellInsert (i : Nat) (v : α) (l : Cells α) (q : Nat × α) (hq : q ∈ cellInsert i v l) :
    q = (i, v) ∨ q ∈ l := by
  induction l with
  | nil => simpa [cellInsert] using hq
  | cons r l ih =>
    obtain ⟨m, u⟩ := r
    unfold cellInsert at hq
    split at hq
    · rcases List.mem_cons.mp hq with h1 | h1
      · exact .inl h1
      · exact .inr h1
    · rcases List.mem_cons.mp hq with h1 | h1
      · exact .inr (by simp [h1])
      · rcases ih h1 with h2 | h2
        · exact .inl h2
        · exact .inr (List.mem_cons_of_mem _ h2)

theorem cellInsert_pairwise (i : Nat) (v : α) (l : Cells α) (hl : l.Pairwise (fun p q => p.1 < q.1))
    (h : ∀ p ∈ l, p.1 ≠ i) : (cellInsert i v l).Pairwise (fun p q => p.1 < q.1) := by
  induction l with
  | nil => simp [cellInsert]
  | cons p l ih =>
    obtain ⟨k, w⟩ := p
    have hp := List.pairwise_cons.mp hl
    have hk : k ≠ i := h (k, w) (by simp)
    by_cases hik : i < k
    · rw [cellInsert, if_pos hik]
      refine List.pairwise_cons.mpr ⟨fun q hq => ?_, hl⟩
      rcases List.mem_cons.mp hq with rfl | hq
      · exact hik
      · exact lt_trans hik (hp.1 q hq)
    · rw [cellInsert, if_neg hik]
      refine List.pairwise_cons.mpr ⟨fun q hq => ?_, ih hp.2 fun p hp => h p (List.mem_cons_of_mem _ hp)⟩
      rcases mem_cellInsert i v l q hq with rfl | hq
      · exact lt_of_le_of_ne (not_lt.mp hik) hk
      · exact hp.1 q hq

/-- A write inside the capacity keeps the canonical form. -/
theorem cellSet_wf [DecidableEq α] {cap : Nat} {dflt : Nat → α} {l : Cells α} (h : cellsWf cap dflt l) (i : Nat)
    (v : α) (hi : i < cap) : cellsWf cap dflt (cellSet dflt l i v) := by
  have hf : (l.filter (fun p => !(p.1 == i))).Pairwise (fun p q => p.1 < q.1) := h.1.filter _
  have hne : ∀ p ∈ l.filter (fun p => !(p.1 == i)), p.1 ≠ i := by
    intro p hp
    simpa using (List.mem_filter.mp hp).2
  have hm : ∀ p ∈ l.filter (fun p => !(p.1 == i)), p.1 < cap ∧ p.2 ≠ dflt p.1 := fun p hp =>
    h.2 p (List.mem_filter.mp hp).1
  unfold cellSet
  by_cases hv : v = dflt i
  · rw [if_pos hv]; exact ⟨hf, hm⟩
  · rw [if_neg hv]
    refine ⟨cellInsert_pairwise i v _ hf hne, fun p hp => ?_⟩
    rcases mem_cellInsert i v _ p hp with rfl | hp
    · exact ⟨hi, hv⟩
    · exact hm p hp

/-- A ranged write inside the capacity keeps the canonical form. -/
theorem cellSetRange_wf [DecidableEq α] {cap : Nat} {dflt : Nat → α} (x : List α) :
    ∀ {l : Cells α}, cellsWf cap dflt l → ∀ i, i + x.length ≤ cap → cellsWf cap dflt (cellSetRange dflt l i x) := by
  induction x with
  | nil => intro l h i _; exact h
  | cons v x ih =>
    intro l h i hi
    simp only [List.length_cons] at hi
    exact ih (cellSet_wf h i v (by omega)) (i + 1) (by omega)

end Sys2Proof.Machine
end

