-- ==== Sys2Proof/Laws/State.lean ====
section
/-! SUPPORT. One lemma per field of the state per update, true by rfl, so that no later proof unfolds an update. -/

namespace Sys2Proof.Machine

/-! ### setStatus -/

@[simp] theorem setStatus_cfg (s : State) (a : Agent) (v : Byte) : (s.setStatus a v).cfg = s.cfg := by cases a <;> rfl
@[simp] theorem setStatus_crc (s : State) (a : Agent) (v : Byte) : (s.setStatus a v).crc = s.crc := by cases a <;> rfl
@[simp] theorem setStatus_mem (s : State) (a : Agent) (v : Byte) : (s.setStatus a v).mem = s.mem := by cases a <;> rfl
@[simp] theorem setStatus_pending (s : State) (a : Agent) (v : Byte) : (s.setStatus a v).pending = s.pending := by
  cases a <;> rfl
@[simp] theorem setStatus_issuer (s : State) (a : Agent) (v : Byte) : (s.setStatus a v).issuer = s.issuer := by
  cases a <;> rfl
@[simp] theorem setStatus_completion (s : State) (a : Agent) (v : Byte) :
    (s.setStatus a v).completion = s.completion := by cases a <;> rfl

/-- STATUS reads back what was written, where the port exists. -/
theorem statusOf_setStatus_same (s : State) (a : Agent) (v : Byte) (h : (s.statusOf a).isSome = true) :
    (s.setStatus a v).statusOf a = some v := by
  cases a with
  | host => rfl
  | srv p =>
    have hp : p < s.statusS.length := by simpa [State.statusOf] using h
    simp [State.statusOf, State.setStatus, hp]

/-- Writing one agent's STATUS leaves every other's alone. -/
theorem statusOf_setStatus_other (s : State) (a b : Agent) (v : Byte) (h : b ≠ a) :
    (s.setStatus a v).statusOf b = s.statusOf b := by
  cases a with
  | host => cases b with
    | host => exact absurd rfl h
    | srv q => rfl
  | srv p => cases b with
    | host => rfl
    | srv q =>
      have hpq : p ≠ q := fun e => h (by rw [e])
      simp [State.statusOf, State.setStatus, hpq]

/-! ### complete -/

@[simp] theorem complete_cfg (s : State) (e : Option ErrKind) (r : Result) : (complete s e r).cfg = s.cfg :=
  setStatus_cfg ..
@[simp] theorem complete_crc (s : State) (e : Option ErrKind) (r : Result) : (complete s e r).crc = s.crc :=
  setStatus_crc ..
@[simp] theorem complete_mem (s : State) (e : Option ErrKind) (r : Result) : (complete s e r).mem = s.mem :=
  setStatus_mem ..
@[simp] theorem complete_pending (s : State) (e : Option ErrKind) (r : Result) :
    (complete s e r).pending = s.pending := setStatus_pending ..
@[simp] theorem complete_issuer (s : State) (e : Option ErrKind) (r : Result) :
    (complete s e r).issuer = s.issuer := setStatus_issuer ..
@[simp] theorem complete_completion (s : State) (e : Option ErrKind) (r : Result) :
    (complete s e r).completion = some ⟨s.issuer, e, r⟩ := rfl
@[simp] theorem complete_statusOf (s : State) (e : Option ErrKind) (r : Result) (a : Agent) :
    (complete s e r).statusOf a = (s.setStatus s.issuer (statusCode e)).statusOf a := by cases a <;> rfl

/-! ### accept -/

@[simp] theorem accept_cfg (s : State) (a : Agent) (l : List Input) : (accept s a l).cfg = s.cfg := rfl
@[simp] theorem accept_crc (s : State) (a : Agent) (l : List Input) : (accept s a l).crc = s.crc := rfl
@[simp] theorem accept_statusH (s : State) (a : Agent) (l : List Input) : (accept s a l).statusH = s.statusH := rfl
@[simp] theorem accept_statusS (s : State) (a : Agent) (l : List Input) : (accept s a l).statusS = s.statusS := rfl
@[simp] theorem accept_mem (s : State) (a : Agent) (l : List Input) : (accept s a l).mem = s.mem := rfl
@[simp] theorem accept_pending (s : State) (a : Agent) (l : List Input) : (accept s a l).pending = l := rfl
@[simp] theorem accept_issuer (s : State) (a : Agent) (l : List Input) : (accept s a l).issuer = a := rfl
@[simp] theorem accept_completion (s : State) (a : Agent) (l : List Input) :
    (accept s a l).completion = s.completion := rfl
@[simp] theorem accept_statusOf (s : State) (a b : Agent) (l : List Input) :
    (accept s a l).statusOf b = s.statusOf b := by cases b <;> rfl

/-! ### bank writes -/

@[simp] theorem writeBit_cfg (s : State) (b : BitBank) (i : Nat) (v : Bool) : (writeBit s b i v).cfg = s.cfg := rfl
@[simp] theorem writeBit_crc (s : State) (b : BitBank) (i : Nat) (v : Bool) : (writeBit s b i v).crc = s.crc := rfl
@[simp] theorem writeBit_statusH (s : State) (b : BitBank) (i : Nat) (v : Bool) :
    (writeBit s b i v).statusH = s.statusH := rfl
@[simp] theorem writeBit_statusS (s : State) (b : BitBank) (i : Nat) (v : Bool) :
    (writeBit s b i v).statusS = s.statusS := rfl
@[simp] theorem writeBit_pending (s : State) (b : BitBank) (i : Nat) (v : Bool) :
    (writeBit s b i v).pending = s.pending := rfl
@[simp] theorem writeBit_issuer (s : State) (b : BitBank) (i : Nat) (v : Bool) :
    (writeBit s b i v).issuer = s.issuer := rfl
@[simp] theorem writeBit_completion (s : State) (b : BitBank) (i : Nat) (v : Bool) :
    (writeBit s b i v).completion = s.completion := rfl

@[simp] theorem writeReg_cfg (s : State) (b : RegBank) (i : Nat) (v : Half) : (writeReg s b i v).cfg = s.cfg := rfl
@[simp] theorem writeReg_crc (s : State) (b : RegBank) (i : Nat) (v : Half) : (writeReg s b i v).crc = s.crc := rfl
@[simp] theorem writeReg_statusH (s : State) (b : RegBank) (i : Nat) (v : Half) :
    (writeReg s b i v).statusH = s.statusH := rfl
@[simp] theorem writeReg_statusS (s : State) (b : RegBank) (i : Nat) (v : Half) :
    (writeReg s b i v).statusS = s.statusS := rfl
@[simp] theorem writeReg_pending (s : State) (b : RegBank) (i : Nat) (v : Half) :
    (writeReg s b i v).pending = s.pending := rfl
@[simp] theorem writeReg_issuer (s : State) (b : RegBank) (i : Nat) (v : Half) :
    (writeReg s b i v).issuer = s.issuer := rfl
@[simp] theorem writeReg_completion (s : State) (b : RegBank) (i : Nat) (v : Half) :
    (writeReg s b i v).completion = s.completion := rfl

@[simp] theorem writeBits_cfg (s : State) (b : BitBank) (i : Nat) (x : List Bool) : (writeBits s b i x).cfg = s.cfg := rfl
@[simp] theorem writeBits_crc (s : State) (b : BitBank) (i : Nat) (x : List Bool) : (writeBits s b i x).crc = s.crc := rfl
@[simp] theorem writeBits_statusH (s : State) (b : BitBank) (i : Nat) (x : List Bool) :
    (writeBits s b i x).statusH = s.statusH := rfl
@[simp] theorem writeBits_statusS (s : State) (b : BitBank) (i : Nat) (x : List Bool) :
    (writeBits s b i x).statusS = s.statusS := rfl
@[simp] theorem writeBits_pending (s : State) (b : BitBank) (i : Nat) (x : List Bool) :
    (writeBits s b i x).pending = s.pending := rfl
@[simp] theorem writeBits_issuer (s : State) (b : BitBank) (i : Nat) (x : List Bool) :
    (writeBits s b i x).issuer = s.issuer := rfl
@[simp] theorem writeBits_completion (s : State) (b : BitBank) (i : Nat) (x : List Bool) :
    (writeBits s b i x).completion = s.completion := rfl

@[simp] theorem writeRegs_cfg (s : State) (b : RegBank) (i : Nat) (x : List Half) : (writeRegs s b i x).cfg = s.cfg := rfl
@[simp] theorem writeRegs_crc (s : State) (b : RegBank) (i : Nat) (x : List Half) : (writeRegs s b i x).crc = s.crc := rfl
@[simp] theorem writeRegs_statusH (s : State) (b : RegBank) (i : Nat) (x : List Half) :
    (writeRegs s b i x).statusH = s.statusH := rfl
@[simp] theorem writeRegs_statusS (s : State) (b : RegBank) (i : Nat) (x : List Half) :
    (writeRegs s b i x).statusS = s.statusS := rfl
@[simp] theorem writeRegs_pending (s : State) (b : RegBank) (i : Nat) (x : List Half) :
    (writeRegs s b i x).pending = s.pending := rfl
@[simp] theorem writeRegs_issuer (s : State) (b : RegBank) (i : Nat) (x : List Half) :
    (writeRegs s b i x).issuer = s.issuer := rfl
@[simp] theorem writeRegs_completion (s : State) (b : RegBank) (i : Nat) (x : List Half) :
    (writeRegs s b i x).completion = s.completion := rfl

@[simp] theorem writeElement_cfg (s : State) (i : Nat) (v : Element) : (writeElement s i v).cfg = s.cfg := by
  cases v <;> rfl
@[simp] theorem writeElement_crc (s : State) (i : Nat) (v : Element) : (writeElement s i v).crc = s.crc := by
  cases v <;> rfl
@[simp] theorem writeElement_statusH (s : State) (i : Nat) (v : Element) :
    (writeElement s i v).statusH = s.statusH := by cases v <;> rfl
@[simp] theorem writeElement_statusS (s : State) (i : Nat) (v : Element) :
    (writeElement s i v).statusS = s.statusS := by cases v <;> rfl
@[simp] theorem writeElement_pending (s : State) (i : Nat) (v : Element) :
    (writeElement s i v).pending = s.pending := by cases v <;> rfl
@[simp] theorem writeElement_issuer (s : State) (i : Nat) (v : Element) :
    (writeElement s i v).issuer = s.issuer := by cases v <;> rfl
@[simp] theorem writeElement_completion (s : State) (i : Nat) (v : Element) :
    (writeElement s i v).completion = s.completion := by cases v <;> rfl

/-- STATUS depends on the two STATUS fields alone. -/
theorem statusOf_congr (s t : State) (hH : t.statusH = s.statusH) (hS : t.statusS = s.statusS) (a : Agent) :
    t.statusOf a = s.statusOf a := by cases a <;> simp [State.statusOf, hH, hS]

@[simp] theorem writeBit_statusOf (s : State) (b : BitBank) (i : Nat) (v : Bool) (a : Agent) :
    (writeBit s b i v).statusOf a = s.statusOf a := statusOf_congr _ _ rfl rfl a
@[simp] theorem writeReg_statusOf (s : State) (b : RegBank) (i : Nat) (v : Half) (a : Agent) :
    (writeReg s b i v).statusOf a = s.statusOf a := statusOf_congr _ _ rfl rfl a
@[simp] theorem writeBits_statusOf (s : State) (b : BitBank) (i : Nat) (x : List Bool) (a : Agent) :
    (writeBits s b i x).statusOf a = s.statusOf a := statusOf_congr _ _ rfl rfl a
@[simp] theorem writeRegs_statusOf (s : State) (b : RegBank) (i : Nat) (x : List Half) (a : Agent) :
    (writeRegs s b i x).statusOf a = s.statusOf a := statusOf_congr _ _ rfl rfl a
@[simp] theorem writeElement_statusOf (s : State) (i : Nat) (v : Element) (a : Agent) :
    (writeElement s i v).statusOf a = s.statusOf a := by cases v <;> simp [writeElement]

/-! ### resetWith -/

@[simp] theorem resetWith_cfg (c : Config) : (State.resetWith c).cfg = c := rfl
@[simp] theorem resetWith_crc (c : Config) : (State.resetWith c).crc = 0xFFFF := rfl
@[simp] theorem resetWith_statusH (c : Config) : (State.resetWith c).statusH = 0 := rfl
@[simp] theorem resetWith_statusS (c : Config) : (State.resetWith c).statusS = List.replicate c.numSrv 0 := rfl
@[simp] theorem resetWith_mem (c : Config) : (State.resetWith c).mem = ⟨[], [], [], []⟩ := rfl
@[simp] theorem resetWith_pending (c : Config) : (State.resetWith c).pending = [] := rfl
@[simp] theorem resetWith_issuer (c : Config) : (State.resetWith c).issuer = .host := rfl
@[simp] theorem resetWith_completion (c : Config) : (State.resetWith c).completion = none := rfl

/-! ### banks of a memory -/

@[simp] theorem bits_withBits_same (m : Memory) (b : BitBank) (l : Cells Bool) : (m.withBits b l).bits b = l := by
  cases b <;> rfl
theorem bits_withBits_other (m : Memory) (b b' : BitBank) (l : Cells Bool) (h : b' ≠ b) :
    (m.withBits b l).bits b' = m.bits b' := by
  cases b <;> cases b' <;> first | rfl | exact absurd rfl h
@[simp] theorem regs_withBits (m : Memory) (b : BitBank) (c : RegBank) (l : Cells Bool) :
    (m.withBits b l).regs c = m.regs c := by cases b <;> cases c <;> rfl
@[simp] theorem regs_withRegs_same (m : Memory) (b : RegBank) (l : Cells Half) : (m.withRegs b l).regs b = l := by
  cases b <;> rfl
theorem regs_withRegs_other (m : Memory) (b b' : RegBank) (l : Cells Half) (h : b' ≠ b) :
    (m.withRegs b l).regs b' = m.regs b' := by
  cases b <;> cases b' <;> first | rfl | exact absurd rfl h
@[simp] theorem bits_withRegs (m : Memory) (b : RegBank) (c : BitBank) (l : Cells Half) :
    (m.withRegs b l).bits c = m.bits c := by cases b <;> cases c <;> rfl

end Sys2Proof.Machine
end

