-- ==== Sys2Proof/Laws/Store.lean ====
section
/-! SUPPORT. The banks: read after write over elements and ranges, the frame of each, and the canonical form kept. -/

namespace Sys2Proof.Machine

/-! ### Reads see the configuration and the memory alone -/

theorem readBit_congr {s t : State} (hc : t.cfg = s.cfg) (hm : t.mem = s.mem) (b : BitBank) (i : Nat) :
    readBit t b i = readBit s b i := by simp [readBit, hc, hm]

theorem readReg_congr {s t : State} (hc : t.cfg = s.cfg) (hm : t.mem = s.mem) (b : RegBank) (i : Nat) :
    readReg t b i = readReg s b i := by simp [readReg, hc, hm]

theorem readElement_congr {s t : State} (hc : t.cfg = s.cfg) (hm : t.mem = s.mem) (b : Bank) (i : Nat) :
    readElement t b i = readElement s b i := by
  cases b <;> simp [readElement, readBit_congr hc hm, readReg_congr hc hm]

@[simp] theorem readBit_complete (s : State) (e : Option ErrKind) (r : Result) (b : BitBank) (i : Nat) :
    readBit (complete s e r) b i = readBit s b i := readBit_congr (complete_cfg ..) (complete_mem ..) b i

@[simp] theorem readReg_complete (s : State) (e : Option ErrKind) (r : Result) (b : RegBank) (i : Nat) :
    readReg (complete s e r) b i = readReg s b i := readReg_congr (complete_cfg ..) (complete_mem ..) b i

@[simp] theorem readElement_complete (s : State) (e : Option ErrKind) (r : Result) (b : Bank) (i : Nat) :
    readElement (complete s e r) b i = readElement s b i :=
  readElement_congr (complete_cfg ..) (complete_mem ..) b i

/-! ### Read after write -/

theorem readBit_writeBit (s : State) (b c : BitBank) (i j : Nat) (v : Bool) :
    readBit (writeBit s b i v) c j = if c = b ∧ j = i then v else readBit s c j := by
  by_cases h : c = b
  · subst h; simp [readBit, writeBit, cellGet_cellSet]
  · simp [readBit, writeBit, bits_withBits_other _ _ _ _ h, h]

@[simp] theorem readReg_writeBit (s : State) (b : BitBank) (c : RegBank) (i j : Nat) (v : Bool) :
    readReg (writeBit s b i v) c j = readReg s c j := by simp [readReg, writeBit]

theorem readReg_writeReg (s : State) (b c : RegBank) (i j : Nat) (v : Half) :
    readReg (writeReg s b i v) c j = if c = b ∧ j = i then v else readReg s c j := by
  by_cases h : c = b
  · subst h; simp [readReg, writeReg, cellGet_cellSet]
  · simp [readReg, writeReg, regs_withRegs_other _ _ _ _ h, h]

@[simp] theorem readBit_writeReg (s : State) (b : RegBank) (c : BitBank) (i j : Nat) (v : Half) :
    readBit (writeReg s b i v) c j = readBit s c j := by simp [readBit, writeReg]

/-- `BankWrite` sets one element of one bank and changes nothing else (43_data_store.md R192). -/
theorem readElement_writeElement (s : State) (i j : Nat) (v : Element) (b : Bank) :
    readElement (writeElement s i v) b j = if b = v.bank ∧ j = i then v else readElement s b j := by
  cases v with
  | bit c v =>
    cases b with
    | bit b =>
      simp only [readElement, writeElement, readBit_writeBit, Element.bank, Bank.bit.injEq]
      split
      · next h => rw [h.1]
      · rfl
    | reg b => simp [readElement, writeElement, Element.bank]
  | reg c v =>
    cases b with
    | bit b => simp [readElement, writeElement, Element.bank]
    | reg b =>
      simp only [readElement, writeElement, readReg_writeReg, Element.bank, Bank.reg.injEq]
      split
      · next h => rw [h.1]
      · rfl

theorem readBit_writeBits (s : State) (b c : BitBank) (i j : Nat) (x : List Bool) :
    readBit (writeBits s b i x) c j =
      if h : c = b ∧ i ≤ j ∧ j - i < x.length then x[j - i]'h.2.2 else readBit s c j := by
  by_cases h : c = b
  · subst h; simp [readBit, writeBits, cellGet_cellSetRange]
  · simp [readBit, writeBits, bits_withBits_other _ _ _ _ h, h]

@[simp] theorem readReg_writeBits (s : State) (b : BitBank) (c : RegBank) (i j : Nat) (x : List Bool) :
    readReg (writeBits s b i x) c j = readReg s c j := by simp [readReg, writeBits]

theorem readReg_writeRegs (s : State) (b c : RegBank) (i j : Nat) (x : List Half) :
    readReg (writeRegs s b i x) c j =
      if h : c = b ∧ i ≤ j ∧ j - i < x.length then x[j - i]'h.2.2 else readReg s c j := by
  by_cases h : c = b
  · subst h; simp [readReg, writeRegs, cellGet_cellSetRange]
  · simp [readReg, writeRegs, regs_withRegs_other _ _ _ _ h, h]

@[simp] theorem readBit_writeRegs (s : State) (b : RegBank) (c : BitBank) (i j : Nat) (x : List Half) :
    readBit (writeRegs s b i x) c j = readBit s c j := by simp [readBit, writeRegs]

@[simp] theorem readBits_length (s : State) (b : BitBank) (a q : Nat) : (readBits s b a q).length = q := by
  simp [readBits]

@[simp] theorem readRegs_length (s : State) (b : RegBank) (a q : Nat) : (readRegs s b a q).length = q := by
  simp [readRegs]

/-! ### The canonical form is kept -/

theorem wf_writeBit {s : State} (h : s.mem.wf s.cfg) (b : BitBank) (i : Nat) (v : Bool)
    (hi : i < s.cfg.cap (.bit b)) : (writeBit s b i v).mem.wf s.cfg := by
  obtain ⟨h1, h2, h3, h4⟩ := h
  cases b
  · exact ⟨cellSet_wf h1 i v hi, h2, h3, h4⟩
  · exact ⟨h1, cellSet_wf h2 i v hi, h3, h4⟩

theorem wf_writeReg {s : State} (h : s.mem.wf s.cfg) (b : RegBank) (i : Nat) (v : Half)
    (hi : i < s.cfg.cap (.reg b)) : (writeReg s b i v).mem.wf s.cfg := by
  obtain ⟨h1, h2, h3, h4⟩ := h
  cases b
  · exact ⟨h1, h2, cellSet_wf h3 i v hi, h4⟩
  · exact ⟨h1, h2, h3, cellSet_wf h4 i v hi⟩

theorem wf_writeElement {s : State} (h : s.mem.wf s.cfg) (i : Nat) (v : Element) (hi : i < s.cfg.cap v.bank) :
    (writeElement s i v).mem.wf s.cfg := by
  cases v with
  | bit b v => exact wf_writeBit h b i v hi
  | reg b v => exact wf_writeReg h b i v hi

theorem wf_writeBits {s : State} (h : s.mem.wf s.cfg) (b : BitBank) (a : Nat) (x : List Bool)
    (hi : a + x.length ≤ s.cfg.cap (.bit b)) : (writeBits s b a x).mem.wf s.cfg := by
  obtain ⟨h1, h2, h3, h4⟩ := h
  cases b
  · exact ⟨cellSetRange_wf x h1 a hi, h2, h3, h4⟩
  · exact ⟨h1, cellSetRange_wf x h2 a hi, h3, h4⟩

theorem wf_writeRegs {s : State} (h : s.mem.wf s.cfg) (b : RegBank) (a : Nat) (x : List Half)
    (hi : a + x.length ≤ s.cfg.cap (.reg b)) : (writeRegs s b a x).mem.wf s.cfg := by
  obtain ⟨h1, h2, h3, h4⟩ := h
  cases b
  · exact ⟨h1, h2, cellSetRange_wf x h3 a hi, h4⟩
  · exact ⟨h1, h2, h3, cellSetRange_wf x h4 a hi⟩

/-- Reset memory lists nothing, so it has the form under every configuration. -/
theorem wf_resetWith (c : Config) : (State.resetWith c).mem.wf c := by
  simp [Memory.wf, cellsWf]

end Sys2Proof.Machine
end

