-- ==== Sys2Proof/Laws/Completion.lean ====
section
/-! SUPPORT. The end of an operation: what `complete` leaves, and what the shared endings answer. -/

namespace Sys2Proof.Machine

/-- `complete` is the frame `Completes`, over any state that kept STATUS, configuration, inputs and issuer. -/
theorem completes_complete {s s' : State} (hst : ∀ a, s'.statusOf a = s.statusOf a) (hc : s'.cfg = s.cfg)
    (hp : s'.pending = s.pending) (hi : s'.issuer = s.issuer) (e : Option ErrKind) (r : Result) :
    Completes s (complete s' e r) e r where
  completion := by simp [hi]
  status := fun h => by
    rw [complete_statusOf, ← hi]
    exact statusOf_setStatus_same _ _ _ (by rw [hst, hi]; exact h)
  otherStatus := fun a ha => by
    rw [complete_statusOf, statusOf_setStatus_other _ _ _ _ (by rw [hi]; exact ha), hst]
  cfg := by simp [hc]
  pending := by simp [hp]
  issuer := by simp [hi]

/-- `complete` on the state itself does nothing else. -/
theorem onlyCompletes_complete (s : State) (e : Option ErrKind) (r : Result) : OnlyCompletes s (complete s e r) e r where
  toCompletes := completes_complete (fun _ => rfl) rfl rfl rfl e r
  store := fun b i => readElement_complete s e r b i
  crc := complete_crc s e r

theorem hostOnly_host {s : State} (h : s.issuer = .host) (o : Outcome) : hostOnly s o = o := by
  simp [hostOnly, h]

theorem hostOnly_srv {s : State} {p : Nat} (h : s.issuer = .srv p) (o : Outcome) :
    hostOnly s o = .next (complete s (some .protocolError) .nothing) := by simp [hostOnly, h, raise]

theorem serverOnly_srv {s : State} {p : Nat} (h : s.issuer = .srv p) (o : Outcome) : serverOnly s o = o := by
  simp [serverOnly, h]

theorem serverOnly_host {s : State} (h : s.issuer = .host) (o : Outcome) :
    serverOnly s o = .next (complete s (some .protocolError) .nothing) := by simp [serverOnly, h, raise]

/-- What `finish` answers. -/
theorem finish_eq (r : Result) (s : State) : finish r s = .next (complete s none r) := rfl

/-- What `raise` answers. -/
theorem raise_eq (k : ErrKind) (s : State) : raise k s = .next (complete s (some k) .nothing) := rfl

/-- What `settle` answers. -/
theorem settle_ok (v : Result) (s : State) : settle (.ok v) s = .next (complete s none v) := rfl

theorem settle_error (k : ErrKind) (s : State) : settle (.error k) s = .next (complete s (some k) .nothing) := rfl

/-- An operation of H that computes its result. -/
theorem hostOnly_settle_ok {s : State} (hs : s.issuer = .host) {x : Except ErrKind Result} {v : Result}
    (h : x = .ok v) : hostOnly s (settle x s) = .next (complete s none v) := by
  rw [hostOnly_host hs, h, settle_ok]

/-- An operation of H that raises an error kind. -/
theorem hostOnly_settle_error {s : State} (hs : s.issuer = .host) {x : Except ErrKind Result} {k : ErrKind}
    (h : x = .error k) : hostOnly s (settle x s) = .next (complete s (some k) .nothing) := by
  rw [hostOnly_host hs, h, settle_error]

end Sys2Proof.Machine
end

