-- ==== Sys2Proof/Laws/Operands.lean ====
section
/-! SUPPORT. Byte order, byte sequences and packing: what each helper gives, bit by bit or byte by byte. -/

namespace Sys2Proof

@[simp] theorem be16_hi8_lo8 (v : Half) : be16 (hi8 v) (lo8 v) = v := by
  refine BitVec.eq_of_getLsbD_eq fun i hi => ?_
  simp only [be16, hi8, lo8, BitVec.getLsbD_append, BitVec.getLsbD_extractLsb']
  by_cases h : i < 8
  · simp [h]
  · have e : 8 + (i - 8) = i := by omega
    have : i - 8 < 8 := by omega
    simp [h, e, this]

@[simp] theorem hi8_be16 (h l : Byte) : hi8 (be16 h l) = h := by
  refine BitVec.eq_of_getLsbD_eq fun i hi => ?_
  simp only [be16, hi8, BitVec.getLsbD_extractLsb', BitVec.getLsbD_append]
  simp [hi]

@[simp] theorem lo8_be16 (h l : Byte) : lo8 (be16 h l) = l := by
  refine BitVec.eq_of_getLsbD_eq fun i hi => ?_
  simp only [be16, lo8, BitVec.getLsbD_extractLsb', BitVec.getLsbD_append]
  simp [hi]

theorem be16_inj {h l h' l' : Byte} (e : be16 h l = be16 h' l') : h = h' ∧ l = l' :=
  ⟨by simpa using congrArg hi8 e, by simpa using congrArg lo8 e⟩

@[simp] theorem byteAt_cons_zero (x : Byte) (f : List Byte) : byteAt (x :: f) 0 = x := rfl

@[simp] theorem byteAt_cons_succ (x : Byte) (f : List Byte) (i : Nat) : byteAt (x :: f) (i + 1) = byteAt f i := rfl

theorem byteAt_append_left {f : List Byte} {i : Nat} (h : i < f.length) (g : List Byte) :
    byteAt (f ++ g) i = byteAt f i := by
  simp [byteAt, List.getD_eq_getElem?_getD, List.getElem?_append_left h]

theorem byteAt_append_right (f g : List Byte) (i : Nat) : byteAt (f ++ g) (f.length + i) = byteAt g i := by
  simp [byteAt, List.getD_eq_getElem?_getD, List.getElem?_append_right]

@[simp] theorem slice_zero (f : List Byte) (j : Nat) : slice f 0 j = f.take j := rfl

theorem slice_eq_take_drop (f : List Byte) (i n : Nat) : slice f i (i + n) = (f.drop i).take n := by
  simp [slice, List.drop_take]

end Sys2Proof

namespace Sys2Proof.Machine

@[simp] theorem packCoils_length (x : List Bool) : (packCoils x).length = (x.length + 7) / 8 := by
  simp [packCoils, ceil8]

/-- The sum of distinct powers below 2^8 has exactly the chosen bits. -/
theorem sum_of_powers_bits : ∀ b0 b1 b2 b3 b4 b5 b6 b7 : Bool, ∀ j : Fin 8,
    (BitVec.ofNat 8 ((if b0 then 1 else 0) + ((if b1 then 2 else 0) + ((if b2 then 4 else 0) + ((if b3 then 8 else 0) +
      ((if b4 then 16 else 0) + ((if b5 then 32 else 0) + ((if b6 then 64 else 0) + (if b7 then 128 else 0))))))))).getLsbD
        j.val = [b0, b1, b2, b3, b4, b5, b6, b7].getD j.val false := by decide

/-- Bit j of byte k of the packed form is element 8k + j (20_memory.md R55). -/
theorem packByte_getLsbD (x : List Bool) (k j : Nat) (hj : j < 8) :
    (packByte x k).getLsbD j = x.getD (8 * k + j) false := by
  have h := sum_of_powers_bits (x.getD (8 * k + 0) false) (x.getD (8 * k + 1) false) (x.getD (8 * k + 2) false)
    (x.getD (8 * k + 3) false) (x.getD (8 * k + 4) false) (x.getD (8 * k + 5) false) (x.getD (8 * k + 6) false)
    (x.getD (8 * k + 7) false) ⟨j, hj⟩
  have e : packByte x k = BitVec.ofNat 8 ((if x.getD (8 * k + 0) false then 1 else 0) +
      ((if x.getD (8 * k + 1) false then 2 else 0) + ((if x.getD (8 * k + 2) false then 4 else 0) +
      ((if x.getD (8 * k + 3) false then 8 else 0) + ((if x.getD (8 * k + 4) false then 16 else 0) +
      ((if x.getD (8 * k + 5) false then 32 else 0) + ((if x.getD (8 * k + 6) false then 64 else 0) +
      (if x.getD (8 * k + 7) false then 128 else 0)))))))) := rfl
  rw [e, h]
  interval_cases j <;> rfl

/-- Bit k of the packed form is element k; padding is 0. -/
theorem packedBit_packCoils (x : List Bool) (k : Nat) (hk : k < 8 * ((x.length + 7) / 8)) :
    packedBit (packCoils x) k = x.getD k false := by
  have hq : k / 8 < ceil8 x.length := by unfold ceil8; omega
  have hb : byteAt (packCoils x) (k / 8) = packByte x (k / 8) := by
    simp [byteAt, packCoils, List.getD_eq_getElem?_getD, hq]
  rw [packedBit, hb, packByte_getLsbD _ _ _ (Nat.mod_lt _ (by omega)), Nat.div_add_mod]

@[simp] theorem packRegs_length (x : List Half) : (packRegs x).length = 2 * x.length := by
  induction x with
  | nil => rfl
  | cons v x ih => simp [packRegs, ih]; omega

/-- Register k is at bytes 2k and 2k + 1, high byte first (20_memory.md R56). -/
theorem byteAt_packRegs (x : List Half) : ∀ k, k < x.length →
    byteAt (packRegs x) (2 * k) = hi8 (x.getD k 0) ∧ byteAt (packRegs x) (2 * k + 1) = lo8 (x.getD k 0) := by
  induction x with
  | nil => intro k h; simp at h
  | cons v x ih =>
    intro k h
    cases k with
    | zero => simp [packRegs]
    | succ k =>
      have := ih k (by simpa using h)
      have e1 : 2 * (k + 1) = 2 * k + 1 + 1 := by omega
      rw [e1]
      simpa [packRegs] using this

/-- The registers of a payload of even length. -/
theorem regsOf_length_get (n : Nat) : ∀ p : List Byte, p.length = 2 * n →
    (regsOf p).length = n ∧ ∀ k, k < n → (regsOf p).getD k 0 = be16 (byteAt p (2 * k)) (byteAt p (2 * k + 1)) := by
  induction n with
  | zero =>
    intro p hp
    have : p = [] := List.length_eq_zero_iff.mp (by omega)
    subst this; simp [regsOf]
  | succ n ih =>
    intro p hp
    match p, hp with
    | h :: l :: p, hp =>
      have hl : p.length = 2 * n := by simp only [List.length_cons] at hp; omega
      obtain ⟨h1, h2⟩ := ih p hl
      refine ⟨by simp [regsOf, h1], fun k hk => ?_⟩
      cases k with
      | zero => simp [regsOf]
      | succ k =>
        have e1 : 2 * (k + 1) = 2 * k + 1 + 1 := by omega
        rw [e1]
        simpa [regsOf] using h2 k (by omega)
    | [x], hp => simp only [List.length_cons, List.length_nil] at hp; omega

end Sys2Proof.Machine
end

