-- ==== Sys2Proof/Laws/Crc.lean ====
section
/-! SUPPORT. The CRC step is linear over XOR and loses nothing of the running value: the facts every law of
40_crc.md section 4 rests on. -/

namespace Sys2Proof.Machine

theorem crcShift_xor (a b : Half) : crcShift (a ^^^ b) = crcShift a ^^^ crcShift b := by
  unfold crcShift
  rw [BitVec.getLsbD_xor, BitVec.ushiftRight_xor_distrib]
  cases a.getLsbD 0 <;> cases b.getLsbD 0 <;> simp
  · rw [BitVec.xor_assoc]
  · rw [BitVec.xor_assoc, BitVec.xor_assoc, BitVec.xor_comm (b >>> 1)]
  · rw [BitVec.xor_assoc (a >>> 1), ← BitVec.xor_assoc 40961#16, BitVec.xor_comm 40961#16,
      BitVec.xor_assoc (b >>> 1)]
    simp

theorem crcShifts_xor (n : Nat) : ∀ a b : Half, crcShifts n (a ^^^ b) = crcShifts n a ^^^ crcShifts n b := by
  induction n with
  | zero => intro a b; rfl
  | succ n ih => intro a b; simp [crcShifts, crcShift_xor, ih]

/-- One bit iteration sends only 0 to 0. -/
theorem crcShift_eq_zero {c : Half} (h : crcShift c = 0) : c = 0 := by
  unfold crcShift at h
  split at h
  · next h0 =>
    have := congrArg (fun v : Half => v.getLsbD 15) h
    simp at this
  · next h0 =>
    ext i hi
    cases i with
    | zero => simpa using h0
    | succ i =>
      have := congrArg (fun v : Half => v.getLsbD i) h
      simp only [BitVec.getLsbD_ushiftRight] at this
      rw [Nat.add_comm] at this
      simpa [BitVec.getLsbD_eq_getElem hi] using this

theorem crcShifts_eq_zero (n : Nat) : ∀ {c : Half}, crcShifts n c = 0 → c = 0 := by
  induction n with
  | zero => intro c h; exact h
  | succ n ih => intro c h; exact crcShift_eq_zero (ih h)

/-- n more bit iterations. -/
theorem crcShifts_add (m n : Nat) : ∀ c, crcShifts (m + n) c = crcShifts n (crcShifts m c) := by
  induction m with
  | zero => intro c; simp [crcShifts]
  | succ m ih => intro c; rw [Nat.succ_add]; simp [crcShifts, ih]

/-- The step is linear over XOR in the running value and the byte together. -/
theorem crcStep_xor (a b : Half) (d e : Byte) : crcStep (a ^^^ b) (d ^^^ e) = crcStep a d ^^^ crcStep b e := by
  unfold crcStep
  rw [← crcShifts_xor, BitVec.setWidth_xor]
  congr 1
  ac_rfl

/-- The comparison of CRC.CHECK and RTU.DEC on a body and its last two bytes. -/
theorem crcMatches_append (body : List Byte) (l h : Byte) :
    crcMatches (body ++ [l, h]) = (crc16 body == be16 h l) := by
  have e1 : (body ++ [l, h]).length - 2 = body.length := by simp
  have e2 : (body ++ [l, h]).length - 1 = body.length + 1 := by simp
  unfold crcMatches
  rw [e1, e2, byteAt_append_right]
  rw [show body.length = body.length + 0 from rfl, byteAt_append_right]
  simp [byteAt]

/-- CRC.CHECK on a body and its last two bytes. -/
theorem crcCheck_append (body : List Byte) (l h : Byte) :
    crcCheck (body ++ [l, h]) = if crc16 body = be16 h l then .ok body else .error .crcError := by
  have hl : ¬ (body ++ [l, h]).length < 2 := by simp
  have e1 : (body ++ [l, h]).length - 2 = body.length := by simp
  unfold crcCheck
  rw [if_neg hl, crcMatches_append, e1]
  by_cases hc : crc16 body = be16 h l <;> simp [hc]

end Sys2Proof.Machine
end

