-- ==== Sys2Proof/Laws/Decode.lean ====
section
/-! SUPPORT. The tables of selectors and function codes, and the request frame's fields. -/

namespace Sys2Proof

@[simp] theorem selectorOf_byte (o : Selector) : selectorOf o.byte = some o := by cases o <;> decide

theorem byte_of_selectorOf {op : Byte} {o : Selector} (h : selectorOf op = some o) : o.byte = op := by
  have := List.find?_some h
  simpa using this

@[simp] theorem fnOf_byte (g : Fn) : fnOf g.byte = some g := by cases g <;> decide

theorem byte_of_fnOf {fc : Byte} {g : Fn} (h : fnOf fc = some g) : g.byte = fc := by
  have := List.find?_some h
  simpa using this

/-- A function code is legal when it is one of R93's eight. -/
theorem fnOf_isSome_iff (fc : Byte) : (fnOf fc).isSome = true ↔ fc ∈ legalFunctionCodes := by
  revert fc; decide

@[simp] theorem bankOf_bankSelector (b : Bank) : bankOf (bankSelector b) = b := by
  cases b with
  | bit b => cases b <;> rfl
  | reg b => cases b <;> rfl

@[simp] theorem requestFrame_length (h : MbapHeader) (fc : Byte) (a n : Half) (rest : List Byte) :
    (requestFrame h fc a n rest).length = 12 + rest.length := by
  simp only [requestFrame, List.length_append, List.length_cons, List.length_nil]

@[simp] theorem headerOf_requestFrame (h : MbapHeader) (fc : Byte) (a n : Half) (rest : List Byte) :
    headerOf (requestFrame h fc a n rest) = h := by simp [headerOf, requestFrame]

/-- The decoder reads back the fields a request frame was built from. -/
theorem decodeFrame_requestFrame (g : Fn) (h : MbapHeader) (a n : Half) (rest : List Byte) :
    decodeFrame (requestFrame h g.byte a n rest) = some (g.instr h a n rest) := by
  have h7 : byteAt (requestFrame h g.byte a n rest) 7 = g.byte := rfl
  have hl : ¬ (requestFrame h g.byte a n rest).length < 12 := by simp
  rw [decodeFrame, if_neg hl, h7, fnOf_byte, headerOf_requestFrame]
  simp [requestFrame]

/-- A frame of 12 bytes or more is the frame of its fields. -/
theorem requestFrame_headerOf (q : List Byte) (h : 12 ≤ q.length) :
    requestFrame (headerOf q) (byteAt q 7) (be16 (byteAt q 8) (byteAt q 9)) (be16 (byteAt q 10) (byteAt q 11))
      (q.drop 12) = q := by
  match q, h with
  | x0 :: x1 :: x2 :: x3 :: x4 :: x5 :: x6 :: x7 :: x8 :: x9 :: x10 :: x11 :: rest, _ =>
    simp [requestFrame, headerOf]

/-- A command with a listed selector decodes to that operation with its operand lines. -/
theorem decode_of_selector {c : Command} {o : Selector} (h : c.op = o.byte) : decode c = .ok (o.instr c) := by
  simp only [decode, h, selectorOf_byte]

/-- A frame that is no request of a legal function code carries no function-code instruction. -/
theorem decodeFrame_of_not_request {q : List Byte} (h : isFunctionRequest q = false) : decodeFrame q = none := by
  unfold decodeFrame
  split
  · rfl
  · next hl =>
    have h12 : 12 ≤ q.length := by omega
    have hf : (fnOf (byteAt q 7)).isSome = false := by
      rw [Bool.eq_false_iff, Ne, fnOf_isSome_iff]
      simpa [isFunctionRequest, h12, byteAt] using h
    rw [Option.isSome_eq_false_iff, Option.isNone_iff_eq_none] at hf
    rw [hf]

end Sys2Proof
end

