-- ==== Sys2Proof/Laws/Server.lean ====
section
/-! SUPPORT. The frame builders on the frames they meet, the write-multiple payload, and the two ends of a
transaction. -/

namespace Sys2Proof.Machine

theorem mbapEncode_ok {q : List Byte} {fc : Byte} {p : List Byte} (hq : 7 ≤ q.length) (hp : p.length ≤ 65532) :
    mbapEncode q fc p = .ok (q.take 4 ++ [hi8 (BitVec.ofNat 16 (3 + p.length)), lo8 (BitVec.ofNat 16 (3 + p.length)),
      byteAt q 6, fc] ++ p) := by
  rw [mbapEncode, if_neg (by omega), if_neg (by omega)]
  rfl

theorem mbapError_ok {q : List Byte} {fc : Byte} (hq : 7 ≤ q.length) :
    mbapError q fc = .ok (q.take 4 ++ [0x00, 0x03, byteAt q 6, fc ||| 0x80, 0x01]) := by
  rw [mbapError, if_neg (by omega)]
  rfl

theorem mbapDecode_ok {q : List Byte} (h : 12 ≤ q.length) :
    mbapDecode q = .ok (byteAt q 6, byteAt q 7, be16 (byteAt q 8) (byteAt q 9), be16 (byteAt q 10) (byteAt q 11)) := by
  rw [mbapDecode, if_neg (by omega)]

/-- The normal response to a request frame is format TR of its header. -/
theorem mbapEncode_requestFrame (h : MbapHeader) (fc fc' : Byte) (a n : Half) (rest p : List Byte)
    (hp : p.length ≤ 65532) : mbapEncode (requestFrame h fc a n rest) fc' p = .ok (normalFrame h fc' p) := by
  rw [mbapEncode_ok (by rw [requestFrame_length]; omega) hp]
  rfl

/-- The error response to a request frame is format TE of its header. -/
theorem mbapError_requestFrame (h : MbapHeader) (fc fc' : Byte) (a n : Half) (rest : List Byte) :
    mbapError (requestFrame h fc a n rest) fc' = .ok (errorFrame h fc') := by
  rw [mbapError_ok (by rw [requestFrame_length]; omega)]
  rfl

/-- The four bytes a write request's response echoes. -/
theorem slice_requestFrame (h : MbapHeader) (fc : Byte) (a n : Half) (rest : List Byte) :
    slice (requestFrame h fc a n rest) 8 12 = [hi8 a, lo8 a, hi8 n, lo8 n] := by simp [slice, requestFrame]

/-- The payload of a write-multiple request, from the bytes at offset 12 on. -/
theorem multiplePayload_requestFrame (h : MbapHeader) (fc : Byte) (a n : Half) (rest : List Byte) (need : Nat) :
    multiplePayload (requestFrame h fc a n rest) need =
      if 1 + (byteAt rest 0).toNat ≤ rest.length ∧ (byteAt rest 0).toNat = need then .ok ((rest.drop 1).take need)
      else .error .formatError := by
  have h12 : byteAt (requestFrame h fc a n rest) 12 = byteAt rest 0 := by simp [requestFrame]
  rw [multiplePayload]
  simp only [h12, requestFrame_length]
  by_cases h1 : 12 + rest.length < 13
  · rw [if_pos h1, if_neg]; omega
  · rw [if_neg h1]
    by_cases h2 : 12 + rest.length < 13 + (byteAt rest 0).toNat
    · rw [if_pos h2, if_neg]; omega
    · rw [if_neg h2]
      by_cases h3 : (byteAt rest 0).toNat = need
      · rw [if_neg (by simpa using h3), if_pos ⟨by omega, h3⟩, slice_eq_take_drop, h3]
        congr 2
      · rw [if_pos h3, if_neg (fun h => h3 h.2)]

/-- A transaction whose handler answers ends with the normal frame. -/
theorem transact_ok {h : MbapHeader} {fc : Byte} {a n : Half} {rest d : List Byte}
    {reply : List Byte → State → Reply} {s s' : State} {p : Nat} (hs : s.issuer = .srv p)
    (hr : reply (requestFrame h fc a n rest) s = .ok d s') (hd : d.length ≤ 65532) :
    transact h fc a n rest reply s = .next (complete s' none (.response (some (normalFrame h fc d)))) := by
  rw [transact, serverOnly_srv hs, hr, conclude, mbapEncode_requestFrame _ _ _ _ _ _ _ hd]
  rfl

/-- A transaction whose handler fails ends with the error frame. -/
theorem transact_fail {h : MbapHeader} {fc : Byte} {a n : Half} {rest : List Byte}
    {reply : List Byte → State → Reply} {s : State} {p : Nat} {k : ErrKind} (hs : s.issuer = .srv p)
    (hr : reply (requestFrame h fc a n rest) s = .fail k) :
    transact h fc a n rest reply s = .next (complete s (some k) (.response (some (errorFrame h fc)))) := by
  rw [transact, serverOnly_srv hs, hr, conclude, errorResponse, mbapError_requestFrame]
  rfl

/-- A handler keeps CRC, every STATUS, the configuration, the inputs and the issuer, and its payload is at most
256 bytes. -/
theorem handler_ok {g : Fn} {q : List Byte} {a n : Half} {s s' : State} {p : List Byte}
    (h : handler g q a n s = .ok p s') :
    p.length ≤ 256 ∧ s'.crc = s.crc ∧ s'.statusH = s.statusH ∧ s'.statusS = s.statusS ∧ s'.cfg = s.cfg ∧
      s'.pending = s.pending ∧ s'.issuer = s.issuer := by
  have h4 : (slice q 8 12).length ≤ 256 := by simp [slice]
  cases g <;> simp only [handler, readBitsReply, readRegsReply, writeCoilReply, writeRegReply, writeCoilsReply,
      writeRegsReply] at h <;>
    (repeat' split at h) <;> simp only [reduceCtorEq, Reply.ok.injEq] at h <;> obtain ⟨rfl, rfl⟩ := h <;>
    refine ⟨?_, by simp, by simp, by simp, by simp, by simp, by simp⟩ <;> first | exact h4 | skip
  all_goals simp [ceil8] at *; omega

/-- A handler fails with FormatError or OutOfRangeError alone. -/
theorem handler_fail {g : Fn} {q : List Byte} {a n : Half} {s : State} {k : ErrKind}
    (h : handler g q a n s = .fail k) : k = .formatError ∨ k = .outOfRangeError := by
  have hc : ∀ v k, coilValue v = .error k → k = .formatError := by
    intro v k h
    unfold coilValue at h
    split at h <;> try split at h
    all_goals simp at h; try exact h.symm
  have hm : ∀ q m k, multiplePayload q m = .error k → k = .formatError := by
    intro q m k h
    unfold multiplePayload at h
    split at h
    · simp at h; exact h.symm
    · simp only at h
      split at h
      · simp at h; exact h.symm
      · split at h <;> simp at h; exact h.symm
  have hu : ∀ p n k, unpackCoils p n = .error k → k = .formatError := by
    intro p n k h
    unfold unpackCoils at h
    split at h <;> simp at h; exact h.symm
  have hr : ∀ p k, unpackRegs p = .error k → k = .formatError := by
    intro p k h
    unfold unpackRegs at h
    split at h <;> simp at h; exact h.symm
  cases g <;> simp only [handler, readBitsReply, readRegsReply, writeCoilReply, writeRegReply, writeCoilsReply,
      writeRegsReply] at h <;>
    (repeat' split at h) <;> simp at h <;> subst h
  all_goals first
    | exact .inr rfl
    | exact .inl (hc _ _ ‹_›)
    | exact .inl (hm _ _ _ ‹_›)
    | exact .inl (hu _ _ _ ‹_›)
    | exact .inl (hr _ _ ‹_›)

end Sys2Proof.Machine
end

