-- ==== Sys2Proof/Laws/Exec.lean ====
section
/-! SUPPORT. What executing an instruction can do, said once: it completes with an error kind and no other change, or
with success and one of the listed changes. And how runs of the machine are taken apart. -/

namespace Sys2Proof.Machine

/-- An operation issued on a port that is not its own: ProtocolError, nothing else. -/
theorem exec_foreign (i : Instr) (s : State)
    (h : (isServerInstr i = true ∧ s.issuer = .host) ∨ (isServerInstr i = false ∧ ∃ p, s.issuer = .srv p)) :
    exec i s = .next (complete s (some .protocolError) .nothing) := by
  rcases h with ⟨h, hi⟩ | ⟨h, p, hi⟩
  · cases i <;> simp [isServerInstr] at h <;> exact serverOnly_host hi _
  · cases i <;> simp [isServerInstr] at h <;> exact hostOnly_srv hi _

/-- The changes a successful operation can make to CRC and the store: s' is s with the change made. -/
def Effect (i : Instr) (s s' : State) : Prop :=
  s' = s ∨
  (s.issuer = .host ∧ i = .crcInit ∧ s' = { s with crc := 0xFFFF }) ∨
  (s.issuer = .host ∧ ∃ d, i = .crcUpdate d ∧ s' = { s with crc := crcStep s.crc d }) ∨
  (s.issuer = .host ∧ ∃ k v, i = .storeSet k v ∧ k.toNat < s.cfg.cap v.bank ∧ s' = writeElement s k.toNat v) ∨
  ((∃ p, s.issuer = .srv p) ∧ (requestFc i = some 0x05 ∨ requestFc i = some 0x0F) ∧
    ∃ a x, a + x.length ≤ s.cfg.cap (.bit .coil) ∧ s' = writeBits s .coil a x) ∨
  ((∃ p, s.issuer = .srv p) ∧ (requestFc i = some 0x06 ∨ requestFc i = some 0x10) ∧
    ∃ a x, a + x.length ≤ s.cfg.cap (.reg .hold) ∧ s' = writeRegs s .hold a x)

theorem multiplePayload_length {q p : List Byte} {m : Nat} (h : multiplePayload q m = .ok p) : p.length = m := by
  unfold multiplePayload at h
  split at h
  · simp at h
  · simp only at h
    split at h
    · simp at h
    · split at h
      · simp at h
      · next h1 h2 h3 =>
        simp at h
        subst h
        simp at h3
        rw [slice_eq_take_drop]
        simp
        omega

/-- What a handler that answers did to the store. -/
theorem handler_effect {g : Fn} {q : List Byte} {a n : Half} {s s' : State} {p : List Byte} {i : Instr}
    (hs : ∃ p, s.issuer = .srv p) (hi : requestFc i = some g.byte) (h : handler g q a n s = .ok p s') :
    Effect i s s' := by
  cases g <;> simp only [handler, readBitsReply, readRegsReply, writeCoilReply, writeRegReply, writeCoilsReply,
    writeRegsReply] at h
  case readCoils => (repeat' split at h) <;> simp at h; exact .inl h.2.symm
  case readDiscreteInputs => (repeat' split at h) <;> simp at h; exact .inl h.2.symm
  case readHoldingRegisters => (repeat' split at h) <;> simp at h; exact .inl h.2.symm
  case readInputRegisters => (repeat' split at h) <;> simp at h; exact .inl h.2.symm
  case writeSingleCoil =>
    split at h
    · simp at h
    · next bit _ =>
      split at h
      · next hr =>
        simp at h
        exact .inr (.inr (.inr (.inr (.inl ⟨hs, .inl hi, a.toNat, [bit], by simpa using hr.2, h.2.symm⟩))))
      · simp at h
  case writeSingleRegister =>
    split at h
    · next hr =>
      simp at h
      exact .inr (.inr (.inr (.inr (.inr ⟨hs, .inl hi, a.toNat, [n], by simpa using hr.2, h.2.symm⟩))))
    · simp at h
  case writeMultipleCoils =>
    split at h
    · simp at h
    · split at h
      · simp at h
      · next hr =>
        split at h
        · simp at h
        · next x hx =>
          simp at h
          have hl : x.length = n.toNat := by
            unfold unpackCoils at hx
            split at hx <;> simp at hx
            subst hx
            simp
          refine .inr (.inr (.inr (.inr (.inl ⟨hs, .inr hi, a.toNat, x, ?_, h.2.symm⟩))))
          rw [hl]
          simp at hr
          exact hr.2
  case writeMultipleRegisters =>
    split at h
    · simp at h
    · next pl hp =>
      split at h
      · simp at h
      · next hr =>
        split at h
        · simp at h
        · next x hx =>
          simp at h
          have hl : x.length = n.toNat := by
            unfold unpackRegs at hx
            split at hx <;> simp at hx
            subst hx
            exact (regsOf_length_get n.toNat pl (multiplePayload_length hp)).1
          refine .inr (.inr (.inr (.inr (.inr ⟨hs, .inr hi, a.toNat, x, ?_, h.2.symm⟩))))
          rw [hl]
          simp at hr
          exact hr.2

/-- The two ways an instruction ends. -/
def Ends (i : Instr) (s : State) (o : Outcome) : Prop :=
  (∃ k r, k ≠ .timeoutError ∧ o = .next (complete s (some k) r)) ∨
    ∃ s' r, o = .next (complete s' none r) ∧ Effect i s s'

theorem ends_conclude {q : List Byte} {fc : Byte} {g : Fn} {q' : List Byte} {a n : Half} {s : State} {i : Instr}
    (hs : ∃ p, s.issuer = .srv p) (hi : requestFc i = some g.byte) :
    Ends i s (conclude q fc (handler g q' a n s) s) := by
  cases hh : handler g q' a n s with
  | ok p s' => exact .inr ⟨_, _, rfl, handler_effect hs hi hh⟩
  | fail k =>
    refine .inl ⟨k, _, ?_, rfl⟩
    rcases handler_fail hh with rfl | rfl <;> decide

/-- A codec of the host port raises no TimeoutError. -/
theorem ends_settle {i : Instr} {s : State} {x : Except ErrKind Result} (h : ∀ k, x = .error k → k ≠ .timeoutError) :
    Ends i s (settle x s) := by
  cases x with
  | ok v => exact .inr ⟨s, v, rfl, .inl rfl⟩
  | error k => exact .inl ⟨k, _, h k rfl, rfl⟩

/-- Every instruction completes, in one of the two ways. -/
theorem exec_ends (i : Instr) (s : State) : Ends i s (exec i s) := by
  by_cases hf : (isServerInstr i = true ∧ s.issuer = .host) ∨ (isServerInstr i = false ∧ ∃ p, s.issuer = .srv p)
  · exact .inl ⟨.protocolError, .nothing, by decide, exec_foreign i s hf⟩
  cases hs : s.issuer with
  | srv p =>
    have hv : ∀ o, serverOnly s o = o := serverOnly_srv hs
    have hi : isServerInstr i = true := by
      by_contra hc
      exact hf (.inr ⟨by simpa using hc, p, hs⟩)
    cases i <;> simp only [isServerInstr, Bool.false_eq_true] at hi
    case srvTx q =>
      show Ends _ s (serverOnly s _)
      rw [hv]
      split
      · exact .inl ⟨_, _, by decide, rfl⟩
      · next hl =>
        by_cases h12 : q.length < 12
        · rw [show mbapDecode q = .error .formatError by rw [mbapDecode, if_pos h12]]
          exact .inl ⟨_, _, by decide, rfl⟩
        · rw [mbapDecode_ok (by omega)]
          simp only
          split
          · exact .inl ⟨.protocolError, _, by decide, rfl⟩
          · next g hg => exact ends_conclude ⟨p, hs⟩ (by rw [requestFc, if_neg hl, byte_of_fnOf hg])
    all_goals
      show Ends _ s (serverOnly s _)
      rw [hv]
    case readCoils h a n r => exact ends_conclude (g := .readCoils) (q' := []) ⟨p, hs⟩ rfl
    case readDiscreteInputs h a n r => exact ends_conclude (g := .readDiscreteInputs) (q' := []) ⟨p, hs⟩ rfl
    case readHoldingRegisters h a n r => exact ends_conclude (g := .readHoldingRegisters) (q' := []) ⟨p, hs⟩ rfl
    case readInputRegisters h a n r => exact ends_conclude (g := .readInputRegisters) (q' := []) ⟨p, hs⟩ rfl
    case writeSingleCoil h a n r => exact ends_conclude (g := .writeSingleCoil) ⟨p, hs⟩ rfl
    case writeSingleRegister h a n r => exact ends_conclude (g := .writeSingleRegister) ⟨p, hs⟩ rfl
    case writeMultipleCoils h a n r => exact ends_conclude (g := .writeMultipleCoils) ⟨p, hs⟩ rfl
    case writeMultipleRegisters h a n r => exact ends_conclude (g := .writeMultipleRegisters) ⟨p, hs⟩ rfl
  | host =>
    have hv : ∀ o, hostOnly s o = o := hostOnly_host hs
    cases i
    case crcInit =>
      show Ends _ s (hostOnly s _)
      rw [hv]
      exact .inr ⟨_, _, rfl, .inr (.inl ⟨hs, rfl, rfl⟩)⟩
    case crcUpdate d =>
      show Ends _ s (hostOnly s _)
      rw [hv]
      exact .inr ⟨_, _, rfl, .inr (.inr (.inl ⟨hs, d, rfl, rfl⟩))⟩
    case storeGet b k =>
      show Ends _ s (hostOnly s _)
      rw [hv]
      split
      · exact .inr ⟨s, _, rfl, .inl rfl⟩
      · exact .inl ⟨.outOfRangeError, _, by decide, rfl⟩
    case storeSet k v =>
      show Ends _ s (hostOnly s _)
      rw [hv]
      split
      · next hr => exact .inr ⟨_, _, rfl, .inr (.inr (.inr (.inl ⟨hs, k, v, rfl, hr, rfl⟩)))⟩
      · exact .inl ⟨.outOfRangeError, _, by decide, rfl⟩
    case srvTx q => exact absurd (.inl ⟨rfl, hs⟩) hf
    case readCoils => exact absurd (.inl ⟨rfl, hs⟩) hf
    case readDiscreteInputs => exact absurd (.inl ⟨rfl, hs⟩) hf
    case readHoldingRegisters => exact absurd (.inl ⟨rfl, hs⟩) hf
    case readInputRegisters => exact absurd (.inl ⟨rfl, hs⟩) hf
    case writeSingleCoil => exact absurd (.inl ⟨rfl, hs⟩) hf
    case writeSingleRegister => exact absurd (.inl ⟨rfl, hs⟩) hf
    case writeMultipleCoils => exact absurd (.inl ⟨rfl, hs⟩) hf
    case writeMultipleRegisters => exact absurd (.inl ⟨rfl, hs⟩) hf
    all_goals
      show Ends _ s (hostOnly s _)
      rw [hv]
    case crcRead => exact .inr ⟨s, _, rfl, .inl rfl⟩
    case crcCompute => exact .inr ⟨s, _, rfl, .inl rfl⟩
    case crcAppend => exact .inr ⟨s, _, rfl, .inl rfl⟩
    case packCoils => exact .inr ⟨s, _, rfl, .inl rfl⟩
    case packRegs => exact .inr ⟨s, _, rfl, .inl rfl⟩
    all_goals
      refine ends_settle fun k hk => ?_
      simp only [crcCheck, rtuEncode, rtuEncodeMultiple, rtuDecode, unpackCoils, unpackRegs, mbapDecode, mbapEncode,
        mbapError] at hk
      repeat' split at hk
    all_goals cases hk
    all_goals decide

/-- A handler that answers changes no element its request does not name. -/
theorem handler_keeps_unnamed {g : Fn} {q : List Byte} {h : MbapHeader} {a n : Half} {rest p : List Byte}
    {s s' : State} {m : Nat} {b : Bank} {k : Nat} (hr : handler g q a n s = .ok p s')
    (hn : namesElement (.srv m) (g.instr h a n rest) b k = false) : readElement s' b k = readElement s b k := by
  cases g <;> simp only [handler, readBitsReply, readRegsReply, writeCoilReply, writeRegReply, writeCoilsReply,
    writeRegsReply] at hr
  case readCoils => (repeat' split at hr) <;> simp at hr; rw [hr.2]
  case readDiscreteInputs => (repeat' split at hr) <;> simp at hr; rw [hr.2]
  case readHoldingRegisters => (repeat' split at hr) <;> simp at hr; rw [hr.2]
  case readInputRegisters => (repeat' split at hr) <;> simp at hr; rw [hr.2]
  case writeSingleCoil =>
    split at hr
    · simp at hr
    · next bit _ =>
      split at hr <;> simp at hr
      rw [← hr.2]
      exact (readElement_writeElement s a.toNat k (.bit .coil bit) b).trans
        (if_neg (by simpa [namesElement, Fn.instr, Element.bank] using hn))
  case writeSingleRegister =>
    split at hr <;> simp at hr
    rw [← hr.2]
    exact (readElement_writeElement s a.toNat k (.reg .hold n) b).trans
      (if_neg (by simpa [namesElement, Fn.instr, Element.bank] using hn))
  case writeMultipleCoils =>
    split at hr
    · simp at hr
    · split at hr
      · simp at hr
      · split at hr
        · simp at hr
        · next x hx =>
          simp at hr
          have hl : x.length = n.toNat := by
            unfold unpackCoils at hx
            split at hx <;> simp at hx
            subst hx
            simp
          rw [← hr.2]
          cases b with
          | reg c => simp [readElement]
          | bit c =>
            simp only [readElement]
            rw [readBit_writeBits, dif_neg]
            rintro ⟨rfl, h1, h2⟩
            simp [namesElement, Fn.instr] at hn
            omega
  case writeMultipleRegisters =>
    split at hr
    · simp at hr
    · next pl hp =>
      split at hr
      · simp at hr
      · split at hr
        · simp at hr
        · next x hx =>
          simp at hr
          have hl : x.length = n.toNat := by
            unfold unpackRegs at hx
            split at hx <;> simp at hx
            subst hx
            exact (regsOf_length_get n.toNat pl (multiplePayload_length hp)).1
          rw [← hr.2]
          cases b with
          | bit c => simp [readElement]
          | reg c =>
            simp only [readElement]
            rw [readReg_writeRegs, dif_neg]
            rintro ⟨rfl, h1, h2⟩
            simp [namesElement, Fn.instr] at hn
            omega

/-- A function-code instruction as the transaction of its handler. -/
theorem exec_fn (g : Fn) (h : MbapHeader) (a n : Half) (rest : List Byte) (s : State) :
    exec (g.instr h a n rest) s = serverOnly s (conclude (requestFrame h g.byte a n rest) g.byte
      (handler g (requestFrame h g.byte a n rest) a n s) s) := by
  cases g <;> rfl

theorem fn_keeps_unnamed {g : Fn} {h : MbapHeader} {a n : Half} {rest : List Byte} {s t : State} {b : Bank} {k : Nat}
    (he : exec (g.instr h a n rest) s = .next t)
    (hn : namesElement s.issuer (g.instr h a n rest) b k = false) : readElement t b k = readElement s b k := by
  rw [exec_fn] at he
  cases hs : s.issuer with
  | host =>
    rw [serverOnly_host hs] at he
    cases he
    simp
  | srv m =>
    rw [serverOnly_srv hs] at he
    rw [hs] at hn
    cases hh : handler g (requestFrame h g.byte a n rest) a n s with
    | fail e =>
      rw [hh] at he
      cases he
      simp
    | ok p s' =>
      rw [hh] at he
      cases he
      rw [readElement_complete]
      exact handler_keeps_unnamed hh hn

/-- A well-formed instruction changes no element of the store that it does not name. -/
theorem exec_keeps_unnamed {i : Instr} {s t : State} {b : Bank} {k : Nat} (hw : i.wf = true)
    (he : exec i s = .next t) (hn : namesElement s.issuer i b k = false) : readElement t b k = readElement s b k := by
  cases i
  case readCoils h a n r => exact fn_keeps_unnamed (g := .readCoils) he hn
  case readDiscreteInputs h a n r => exact fn_keeps_unnamed (g := .readDiscreteInputs) he hn
  case readHoldingRegisters h a n r => exact fn_keeps_unnamed (g := .readHoldingRegisters) he hn
  case readInputRegisters h a n r => exact fn_keeps_unnamed (g := .readInputRegisters) he hn
  case writeSingleCoil h a n r => exact fn_keeps_unnamed (g := .writeSingleCoil) he hn
  case writeSingleRegister h a n r => exact fn_keeps_unnamed (g := .writeSingleRegister) he hn
  case writeMultipleCoils h a n r => exact fn_keeps_unnamed (g := .writeMultipleCoils) he hn
  case writeMultipleRegisters h a n r => exact fn_keeps_unnamed (g := .writeMultipleRegisters) he hn
  case srvTx q =>
    have hf : isFunctionRequest q = false := by simpa [Instr.wf] using hw
    replace he : serverOnly s _ = _ := he
    cases hs : s.issuer with
    | host => rw [serverOnly_host hs] at he; cases he; simp
    | srv m =>
      rw [serverOnly_srv hs] at he
      split at he
      · cases he; simp
      · by_cases h12 : q.length < 12
        · rw [show mbapDecode q = .error .formatError by rw [mbapDecode, if_pos h12]] at he
          cases he
          simp
        · have hd := decodeFrame_of_not_request hf
          rw [decodeFrame, if_neg h12] at hd
          rw [mbapDecode_ok (by omega)] at he
          simp only at he
          split at he
          · cases he; simp
          · next g hg => rw [hg] at hd; cases hd
  all_goals
    rcases exec_ends _ s with ⟨e, r, -, ho⟩ | ⟨s', r, ho, hx⟩ <;> rw [ho] at he <;> cases he <;>
      rw [readElement_complete]
    rcases hx with rfl | ⟨_, _, rfl⟩ | ⟨_, d, _, rfl⟩ | ⟨h1, k', v, h2, -, rfl⟩ | ⟨_, h2, -⟩ | ⟨_, h2, -⟩
    · rfl
    · exact readElement_congr rfl rfl b k
    · exact readElement_congr rfl rfl b k
    · cases h2 <;> (rw [readElement_writeElement, if_neg]; simpa [namesElement, h1] using hn)
    · simp [requestFc] at h2
    · simp [requestFc] at h2

/-- A decoded instruction belongs to the server ports exactly when its selector is SRV.TX's. -/
theorem isServerInstr_of_decode {c : Command} {i : Instr} (h : decode c = .ok i) :
    isServerInstr i = decide (c.op = 0x40) := by
  unfold decode at h
  split at h
  · next o ho =>
    have hb := byte_of_selectorOf ho
    simp only [Except.ok.injEq] at h
    subst h
    rw [← hb]
    cases o <;> try rfl
    simp only [Selector.instr, decodeFrame]
    split
    · simp [isServerInstr, Selector.byte]
    · split
      · simp [isServerInstr, Selector.byte]
      · next g _ => cases g <;> simp [Fn.instr, isServerInstr, Selector.byte]
  · simp at h

/-- A run's first step. -/
theorem run_succ {n : Nat} {s t : State} (h : step s = .next t) :
    Host.Core.run Sys2Proof.core (n + 1) s = Host.Core.run Sys2Proof.core n t := by
  have h' : Sys2Proof.core.step s = .next t := h
  simp only [Host.Core.run, h']

/-- A run is taken in two parts. -/
theorem run_add {m n : Nat} : ∀ {s t : State}, Host.Core.run Sys2Proof.core m s = .next t →
    Host.Core.run Sys2Proof.core (m + n) s = Host.Core.run Sys2Proof.core n t := by
  induction m with
  | zero => intro s t h; cases h; simp
  | succ m ih =>
    intro s t h
    simp only [Host.Core.run] at h
    cases hs : Sys2Proof.core.step s with
    | next s' =>
      rw [hs] at h
      rw [show m + 1 + n = m + n + 1 by omega, run_succ hs]
      exact ih h
    | fault r => rw [hs] at h; cases h
    | refused r => rw [hs] at h; cases h

end Sys2Proof.Machine
end

