-- ==== Sys2Proof/Tests/Slice0.lean ====
section
/-! SUPPORT. The model's own tests: well-formedness, decoding of commands written out from the spec, one-step results
taken from 95_test_vectors.md, and for every obligation with hypotheses a witness that meets them. -/

namespace Sys2Proof.Tests

open Sys2Proof.Machine

/-! ### Helpers -/

/-- The state after one instruction, if it is a next state. -/
def after (i : Instr) (s : State) : Option State :=
  match exec i s with
  | .next t => some t
  | .fault _ => none
  | .refused _ => none

/-- What one instruction returns. -/
def done (i : Instr) (s : State) : Option Completion := (after i s).bind State.completion

/-- The state with an operation of server port p being taken. -/
def onPort (p : Nat) (s : State) : State := { s with issuer := .srv p }

/-- The state with inputs pending. -/
def given (l : List Input) : State := { State.reset with pending := l }

/-- The reset state with these elements of HOLD. -/
def withHold (l : Cells Half) : State := { State.reset with mem := ⟨[], [], l, []⟩ }

/-- The reset state with these elements of COIL. -/
def withCoils (l : Cells Bool) : State := { State.reset with mem := ⟨l, [], [], []⟩ }

/-- A request header. -/
def hd0 : MbapHeader := ⟨0x0001, 0x0000, 0x0006, 0x01⟩

/-! ### Well-formedness: the one check, with the ill-formed term it refuses -/

theorem test_wf_refuses_function_request_as_srvTx :
    (Instr.srvTx [0x00, 0x01, 0x00, 0x00, 0x00, 0x06, 0x01, 0x03, 0x00, 0x00, 0x00, 0x01]).wf = false := by decide

theorem test_wf_accepts_short_and_illegal_requests :
    (Instr.srvTx [0x00, 0x01, 0x00, 0x00, 0x00, 0x06, 0x01, 0x03, 0x00, 0x00, 0x00]).wf = true ∧
    (Instr.srvTx [0x12, 0x34, 0x00, 0x00, 0x00, 0x06, 0x01, 0x99, 0x00, 0x00, 0x00, 0x01]).wf = true := by decide

/-! ### Decoding: each operation's command, written out from 30_encoding.md R100 and R85 -/

theorem test_decode_crc_unit :
    decode { op := 0x00 } = .ok .crcInit ∧
    decode { op := 0x01, d := 0x0A } = .ok (.crcUpdate 0x0A) ∧
    decode { op := 0x02 } = .ok .crcRead ∧
    decode { op := 0x03, bytes := [0x31] } = .ok (.crcCompute [0x31]) ∧
    decode { op := 0x04, bytes := [0x31] } = .ok (.crcAppend [0x31]) ∧
    decode { op := 0x05, bytes := [0xFF, 0xFF] } = .ok (.crcCheck [0xFF, 0xFF]) :=
  ⟨rfl, rfl, rfl, rfl, rfl, rfl⟩

theorem test_decode_rtu_codec :
    decode { op := 0x10, unit := 0x11, fc := 0x03, addr := 0x006B, qv := 0x0003 } =
      .ok (.rtuEnc 0x11 0x03 0x006B 0x0003) ∧
    decode { op := 0x11, unit := 0x01, addr := 0x0010, bits := [true] } = .ok (.rtuEncwc 0x01 0x0010 [true]) ∧
    decode { op := 0x12, unit := 0x01, addr := 0x0010, regs := [0xFFFF] } = .ok (.rtuEncwr 0x01 0x0010 [0xFFFF]) ∧
    decode { op := 0x13, bytes := [0x01, 0x03, 0x00, 0x20, 0xF0] } = .ok (.rtuDec [0x01, 0x03, 0x00, 0x20, 0xF0]) ∧
    decode { op := 0x14, bits := [true, false] } = .ok (.packCoils [true, false]) ∧
    decode { op := 0x15, bytes := [0x4D], n := 0x0007 } = .ok (.unpackCoils [0x4D] 0x0007) ∧
    decode { op := 0x16, regs := [0x04D2] } = .ok (.packRegs [0x04D2]) ∧
    decode { op := 0x17, bytes := [0x04, 0xD2] } = .ok (.unpackRegs [0x04, 0xD2]) :=
  ⟨rfl, rfl, rfl, rfl, rfl, rfl, rfl, rfl⟩

theorem test_decode_mbap_codec :
    decode { op := 0x20, bytes := [0x00] } = .ok (.mbapDec [0x00]) ∧
    decode { op := 0x21, bytes := [0x00, 0x01], fc := 0x03, payload := [0x02] } =
      .ok (.mbapEnc [0x00, 0x01] 0x03 [0x02]) ∧
    decode { op := 0x22, bytes := [0x00, 0x01], fc := 0x99 } = .ok (.mbapErr [0x00, 0x01] 0x99) :=
  ⟨rfl, rfl, rfl⟩

theorem test_decode_data_store :
    decode { op := 0x30, b := 0, i := 0x0005 } = .ok (.storeGet (.bit .coil) 0x0005) ∧
    decode { op := 0x30, b := 2, i := 0x0005 } = .ok (.storeGet (.reg .hold) 0x0005) ∧
    decode { op := 0x31, b := 1, i := 0x0003, vBit := true } = .ok (.storeSet 0x0003 (.bit .disc true)) ∧
    decode { op := 0x31, b := 3, i := 0x0005, vReg := 0xBEEF } = .ok (.storeSet 0x0005 (.reg .inpt 0xBEEF)) :=
  ⟨rfl, rfl, rfl, rfl⟩

/-- SRV.TX with a request frame of each function code: transaction id 0102, protocol id 0304, length 0506, unit 07,
address 0809, quantity or value 0A0B, then one more byte. -/
theorem test_decode_function_codes :
    [0x01, 0x02, 0x03, 0x04, 0x05, 0x06, 0x0F, 0x10].map (fun fc => (decode { op := 0x40, bytes :=
      [0x01, 0x02, 0x03, 0x04, 0x05, 0x06, 0x07, fc, 0x08, 0x09, 0x0A, 0x0B, 0x0C] }).toOption) =
    [some (.readCoils ⟨0x0102, 0x0304, 0x0506, 0x07⟩ 0x0809 0x0A0B [0x0C]),
     some (.readDiscreteInputs ⟨0x0102, 0x0304, 0x0506, 0x07⟩ 0x0809 0x0A0B [0x0C]),
     some (.readHoldingRegisters ⟨0x0102, 0x0304, 0x0506, 0x07⟩ 0x0809 0x0A0B [0x0C]),
     some (.readInputRegisters ⟨0x0102, 0x0304, 0x0506, 0x07⟩ 0x0809 0x0A0B [0x0C]),
     some (.writeSingleCoil ⟨0x0102, 0x0304, 0x0506, 0x07⟩ 0x0809 0x0A0B [0x0C]),
     some (.writeSingleRegister ⟨0x0102, 0x0304, 0x0506, 0x07⟩ 0x0809 0x0A0B [0x0C]),
     some (.writeMultipleCoils ⟨0x0102, 0x0304, 0x0506, 0x07⟩ 0x0809 0x0A0B [0x0C]),
     some (.writeMultipleRegisters ⟨0x0102, 0x0304, 0x0506, 0x07⟩ 0x0809 0x0A0B [0x0C])] := rfl

theorem test_decode_srvTx_of_short_request : decode { op := 0x40, bytes := [0x01] } = .ok (.srvTx [0x01]) := rfl

theorem test_decode_rejects_undefined_selector :
    decode { op := 0x06 } = .error (.undefinedSelector 0x06) ∧
    decode { op := 0x41 } = .error (.undefinedSelector 0x41) := ⟨rfl, rfl⟩

theorem test_table_words :
    decodeTableWord 8 0x30 = some (.storeGet (.bit .coil) 0) ∧ decodeTableWord 8 0x40 = some (.srvTx []) ∧
    decodeTableWord 8 0x06 = some (.writeSingleRegister ⟨0, 0, 0, 0⟩ 0 0 []) ∧
    decodeTableWord 8 0x0F = some (.writeMultipleCoils ⟨0, 0, 0, 0⟩ 0 0 [0]) ∧
    decodeTableWord 8 0x07 = none := by decide

/-! ### One step of each instruction -/

/-- 40_crc.md R121. -/
theorem test_crc_init_sets_FFFF :
    (after .crcInit { State.reset with crc := 0x1234 }).map State.crc = some 0xFFFF := by decide +kernel

/-- 95 section 2.2, first and last row. -/
theorem test_crc_update_first_bytes :
    (after (.crcUpdate 0x01) State.reset).map State.crc = some 0x807E ∧
    (after (.crcUpdate 0x0A) { State.reset with crc := 0x8419 }).map State.crc = some 0xCDC5 := by decide +kernel

/-- 95 section 8.1, line 8. -/
theorem test_crc_read_returns_register :
    done (.crcRead) { State.reset with crc := 0xCDC5 } = some ⟨.host, none, (.half 0xCDC5)⟩ := by decide +kernel

/-- 95 section 2.1. -/
theorem test_crc_compute_check_value :
    done (.crcCompute [0x31, 0x32, 0x33, 0x34, 0x35, 0x36, 0x37, 0x38, 0x39]) State.reset = some ⟨.host, none, (.half 0x4B37)⟩ ∧
    done (.crcCompute []) State.reset = some ⟨.host, none, (.half 0xFFFF)⟩ := by decide +kernel

/-- 95 section 2.1. -/
theorem test_crc_append_low_byte_first :
    done (.crcAppend [0x01, 0x03, 0x00, 0x00, 0x00, 0x0A]) State.reset = some ⟨.host, none, (.bytes [0x01, 0x03, 0x00, 0x00, 0x00, 0x0A, 0xC5, 0xCD])⟩ := by decide +kernel

/-- 95 section 2.4. -/
theorem test_crc_check_good_and_swapped :
    done (.crcCheck [0x01, 0x03, 0x00, 0x00, 0x00, 0x0A, 0xC5, 0xCD]) State.reset = some ⟨.host, none, (.bytes [0x01, 0x03, 0x00, 0x00, 0x00, 0x0A])⟩ ∧
    done (.crcCheck [0x01, 0x03, 0x00, 0x00, 0x00, 0x0A, 0xCD, 0xC5]) State.reset = some ⟨.host, some .crcError, .nothing⟩ ∧
    done (.crcCheck [0x00]) State.reset = some ⟨.host, some .formatError, .nothing⟩ := by decide +kernel

/-- 95 section 3.1. -/
theorem test_rtu_enc_frames :
    done (.rtuEnc 0x11 0x03 0x006B 0x0003) State.reset = some ⟨.host, none, (.bytes [0x11, 0x03, 0x00, 0x6B, 0x00, 0x03, 0x76, 0x87])⟩ ∧
    done (.rtuEnc 0x01 0x05 0x0000 0x1234) State.reset = some ⟨.host, none, (.bytes [0x01, 0x05, 0x00, 0x00, 0x12, 0x34, 0xC0, 0xBD])⟩ ∧
    done (.rtuEnc 0x01 0x0F 0x0000 0x0001) State.reset = some ⟨.host, some .protocolError, .nothing⟩ := by decide +kernel

/-- 95 section 3.2. -/
theorem test_rtu_encwc_ten_coils :
    done (.rtuEncwc 0x01 0x0000 [true, false, true, true, false, false, true, true, true, false]) State.reset = some ⟨.host, none, (.bytes [0x01, 0x0F, 0x00, 0x00, 0x00, 0x0A, 0x02, 0xCD, 0x01, 0x70, 0x68])⟩ ∧
    done (.rtuEncwc 0x01 0x0000 []) State.reset = some ⟨.host, none, (.bytes [0x01, 0x0F, 0x00, 0x00, 0x00, 0x00, 0x00, 0x0B, 0x3F])⟩ := by decide +kernel

/-- 95 section 3.2. -/
theorem test_rtu_encwr_three_registers :
    done (.rtuEncwr 0x01 0x0000 [2, 3, 4]) State.reset = some ⟨.host, none, (.bytes [0x01, 0x10, 0x00, 0x00, 0x00, 0x03, 0x06, 0x00, 0x02, 0x00, 0x03, 0x00, 0x04, 0x6E, 0x83])⟩ ∧
    done (.rtuEncwr 0x01 0x0000 (List.replicate 128 0)) State.reset = some ⟨.host, some .formatError, .nothing⟩ := by decide +kernel

/-- 95 section 3.3. -/
theorem test_rtu_dec_well_formed_and_longer :
    done (.rtuDec [0x01, 0x03, 0x02, 0x04, 0xD2, 0x3A, 0xD9]) State.reset = some ⟨.host, none, (.bytes [0x04, 0xD2])⟩ ∧
    done (.rtuDec [0x01, 0x03, 0x01, 0xAA, 0xBB, 0x76, 0x97]) State.reset = some ⟨.host, none, (.bytes [0xAA])⟩ := by decide +kernel

/-- 95 section 3.3. -/
theorem test_rtu_dec_errors :
    done (.rtuDec [0x01, 0x03, 0x02, 0x04, 0xD2, 0x3A, 0xD8]) State.reset = some ⟨.host, some .crcError, .nothing⟩ ∧
    done (.rtuDec [0x01, 0x03, 0x04, 0x00, 0x01, 0x99, 0x85]) State.reset = some ⟨.host, some .formatError, .nothing⟩ ∧
    done (.rtuDec [0x01, 0x83, 0x02, 0xC0, 0xF1]) State.reset = some ⟨.host, some .formatError, .nothing⟩ := by decide +kernel

/-- 95 section 4. -/
theorem test_pack_coils :
    done (.packCoils [true, false, true, true, false, false, true, true, true, false]) State.reset = some ⟨.host, none, (.bytes [0xCD, 0x01])⟩ := by decide +kernel

/-- 95 section 4. -/
theorem test_unpack_coils :
    done (.unpackCoils [0x4D] 7) State.reset = some ⟨.host, none, (.bits [true, false, true, true, false, false, true])⟩ ∧
    done (.unpackCoils [0x4D] 9) State.reset = some ⟨.host, some .formatError, .nothing⟩ := by decide +kernel

/-- 95 section 4. -/
theorem test_pack_regs :
    done (.packRegs [2, 3, 4]) State.reset = some ⟨.host, none, (.bytes [0x00, 0x02, 0x00, 0x03, 0x00, 0x04])⟩ := by decide +kernel

/-- 95 section 4. -/
theorem test_unpack_regs :
    done (.unpackRegs [0x12, 0x34, 0xAB, 0xCD]) State.reset = some ⟨.host, none, (.regs [0x1234, 0xABCD])⟩ ∧
    done (.unpackRegs [0x00, 0x02, 0x00]) State.reset = some ⟨.host, some .formatError, .nothing⟩ := by decide +kernel

/-- 95 section 5. -/
theorem test_mbap_dec :
    done (.mbapDec [0xAB, 0xCD, 0x12, 0x34, 0xFF, 0xFF, 0x07, 0x10, 0x01, 0x02, 0x03, 0x04, 0x99]) State.reset = some ⟨.host, none, (.fields 0x07 0x10 0x0102 0x0304)⟩ ∧
    done (.mbapDec [0x00, 0x01, 0x00, 0x00, 0x00, 0x06, 0x01, 0x03, 0x00, 0x00, 0x00]) State.reset = some ⟨.host, some .formatError, .nothing⟩ := by decide +kernel

/-- 95 section 5. -/
theorem test_mbap_enc :
    done (.mbapEnc [0x00, 0x01, 0x00, 0x00, 0x00, 0x06, 0x01] 0x42 [0xAA]) State.reset = some ⟨.host, none, (.bytes [0x00, 0x01, 0x00, 0x00, 0x00, 0x04, 0x01, 0x42, 0xAA])⟩ ∧
    done (.mbapEnc [0x00, 0x01, 0x00, 0x00, 0x00, 0x06] 0x03 []) State.reset = some ⟨.host, some .formatError, .nothing⟩ := by decide +kernel

/-- 95 section 5. -/
theorem test_mbap_err :
    done (.mbapErr [0x12, 0x34, 0x00, 0x00, 0x00, 0x06, 0x01, 0x99, 0x00, 0x00, 0x00, 0x01] 0x99) State.reset = some ⟨.host, none, (.bytes [0x12, 0x34, 0x00, 0x00, 0x00, 0x03, 0x01, 0x99, 0x01])⟩ ∧
    done (.mbapErr [0x00, 0x01, 0x00, 0x00, 0x00, 0x06] 0x03) State.reset = some ⟨.host, some .formatError, .nothing⟩ := by decide +kernel

/-- 95 section 6. -/
theorem test_store_get_last_and_past :
    done (.storeGet (.reg .hold) 0x270F) State.reset = some ⟨.host, none, (.element (.reg .hold 0))⟩ ∧
    done (.storeGet (.reg .hold) 0x2710) State.reset = some ⟨.host, some .outOfRangeError, .nothing⟩ := by decide +kernel

/-- 95 section 6. -/
theorem test_store_set_reads_back :
    ((after (.storeSet 0x0005 (.reg .inpt 0xBEEF)) State.reset).bind (after (.storeGet (.reg .inpt) 0x0005))).bind State.completion =
      some ⟨.host, none, .element (.reg .inpt 0xBEEF)⟩ ∧
    done (.storeSet 0xFFFF (.bit .coil true)) State.reset = some ⟨.host, some .outOfRangeError, .nothing⟩ := by decide +kernel

/-- 95 section 7.1, rows 20, 22, 5. -/
theorem test_srv_tx_short_and_illegal :
    done (.srvTx [0x00, 0x13, 0x00, 0x00, 0x00, 0x04, 0x01, 0x03, 0x00, 0x00]) (onPort 0 State.reset) = some ⟨.srv 0, some .formatError, (.response (some [0x00, 0x13, 0x00, 0x00, 0x00, 0x03, 0x01, 0x83, 0x01]))⟩ ∧
    done (.srvTx [0x00, 0x15, 0x00, 0x00, 0x00, 0x06, 0x01]) (onPort 0 State.reset) = some ⟨.srv 0, some .formatError, (.response none)⟩ ∧
    done (.srvTx [0x12, 0x34, 0x00, 0x00, 0x00, 0x06, 0x01, 0x99, 0x00, 0x00, 0x00, 0x01]) (onPort 0 State.reset) = some ⟨.srv 0, some .protocolError, (.response (some [0x12, 0x34, 0x00, 0x00, 0x00, 0x03, 0x01, 0x99, 0x01]))⟩ := by decide +kernel

/-- 95 section 8.2, line 2. -/
theorem test_srv_tx_reads_register :
    done (.srvTx [0x00, 0x02, 0x00, 0x00, 0x00, 0x06, 0x01, 0x03, 0x00, 0x00, 0x00, 0x01]) (onPort 1 (withHold [(0, 0x04D2)])) = some ⟨.srv 1, none, (.response (some [0x00, 0x02, 0x00, 0x00, 0x00, 0x06, 0x01, 0x03, 0x02, 0x04, 0xD2]))⟩ := by decide +kernel

/-- 95 section 7.1, rows 10, 19. -/
theorem test_read_coils :
    done (.readCoils ⟨0x0009, 0x0000, 0x0006, 0x01⟩ 0x0000 0x0008 []) (onPort 0 (withCoils [(5, true)])) = some ⟨.srv 0, none, (.response (some [0x00, 0x09, 0x00, 0x00, 0x00, 0x05, 0x01, 0x01, 0x01, 0x20]))⟩ ∧
    done (.readCoils ⟨0x0012, 0x0000, 0x0006, 0x01⟩ 0x0000 0x07F9 []) (onPort 0 State.reset) = some ⟨.srv 0, some .outOfRangeError, (.response (some [0x00, 0x12, 0x00, 0x00, 0x00, 0x03, 0x01, 0x81, 0x01]))⟩ := by decide +kernel

/-- 95 section 7.2. -/
theorem test_read_discrete_inputs :
    done (.readDiscreteInputs ⟨0x0001, 0x0000, 0x0006, 0x01⟩ 0x0000 0x0005 []) (onPort 0 { State.reset with mem := ⟨[], [(3, true)], [], []⟩ }) = some ⟨.srv 0, none, (.response (some [0x00, 0x01, 0x00, 0x00, 0x00, 0x05, 0x01, 0x02, 0x01, 0x08]))⟩ := by decide +kernel

/-- 95 section 7.1, rows 8, 27. -/
theorem test_read_holding_registers :
    done (.readHoldingRegisters ⟨0x0007, 0x0000, 0x0006, 0x01⟩ 0x270F 0x0001 []) (onPort 0 State.reset) = some ⟨.srv 0, none, (.response (some [0x00, 0x07, 0x00, 0x00, 0x00, 0x06, 0x01, 0x03, 0x02, 0x00, 0x00]))⟩ ∧
    done (.readHoldingRegisters ⟨0x001A, 0x0000, 0x0006, 0x01⟩ 0x2710 0x0000 []) (onPort 0 State.reset) = some ⟨.srv 0, some .outOfRangeError, (.response (some [0x00, 0x1A, 0x00, 0x00, 0x00, 0x03, 0x01, 0x83, 0x01]))⟩ := by decide +kernel

/-- 95 sections 7.2 and 7.1, row 31. -/
theorem test_read_input_registers :
    done (.readInputRegisters ⟨0x0001, 0x0000, 0x0006, 0x01⟩ 0x0000 0x0002 []) (onPort 0 { State.reset with mem := ⟨[], [], [], [(1, 0xBEEF)]⟩ }) = some ⟨.srv 0, none, (.response (some [0x00, 0x01, 0x00, 0x00, 0x00, 0x08, 0x01, 0x04, 0x04, 0x00, 0x00, 0xBE, 0xEF]))⟩ ∧
    done (.readInputRegisters ⟨0x001E, 0x0000, 0x0006, 0x01⟩ 0x0000 0x0080 []) (onPort 0 State.reset) = some ⟨.srv 0, some .outOfRangeError, (.response (some [0x00, 0x1E, 0x00, 0x00, 0x00, 0x03, 0x01, 0x84, 0x01]))⟩ := by decide +kernel

/-- 95 section 7.1, rows 9, 11. -/
theorem test_write_single_coil :
    done (.writeSingleCoil ⟨0x0008, 0x0000, 0x0006, 0x01⟩ 0x0005 0xFF00 []) (onPort 0 State.reset) = some ⟨.srv 0, none, (.response (some [0x00, 0x08, 0x00, 0x00, 0x00, 0x07, 0x01, 0x05, 0x00, 0x05, 0xFF, 0x00]))⟩ ∧
    (after (.writeSingleCoil ⟨0x0008, 0x0000, 0x0006, 0x01⟩ 0x0005 0xFF00 []) (onPort 0 State.reset)).map (fun s => readBit s .coil 5) = some true ∧
    done (.writeSingleCoil ⟨0x000A, 0x0000, 0x0006, 0x01⟩ 0x0000 0x1234 []) (onPort 0 State.reset) = some ⟨.srv 0, some .formatError, (.response (some [0x00, 0x0A, 0x00, 0x00, 0x00, 0x03, 0x01, 0x85, 0x01]))⟩ := by decide +kernel

/-- 95 section 7.1, rows 1, 35. -/
theorem test_write_single_register :
    done (.writeSingleRegister ⟨0x0001, 0x0000, 0x0006, 0x01⟩ 0x0000 0x04D2 []) (onPort 0 State.reset) = some ⟨.srv 0, none, (.response (some [0x00, 0x01, 0x00, 0x00, 0x00, 0x07, 0x01, 0x06, 0x00, 0x00, 0x04, 0xD2]))⟩ ∧
    (after (.writeSingleRegister ⟨0x0001, 0x0000, 0x0006, 0x01⟩ 0x0000 0x04D2 []) (onPort 0 State.reset)).map (fun s => readReg s .hold 0) = some 1234 ∧
    done (.writeSingleRegister ⟨0x0022, 0x0000, 0x0006, 0x01⟩ 0xFFFF 0x0001 []) (onPort 0 State.reset) = some ⟨.srv 0, some .outOfRangeError, (.response (some [0x00, 0x22, 0x00, 0x00, 0x00, 0x03, 0x01, 0x86, 0x01]))⟩ := by decide +kernel

/-- 95 section 7.1, rows 12, 39. -/
theorem test_write_multiple_coils :
    done (.writeMultipleCoils ⟨0x000B, 0x0000, 0x0009, 0x01⟩ 0x0000 0x000A [0x02, 0xCD, 0x01]) (onPort 0 State.reset) = some ⟨.srv 0, none, (.response (some [0x00, 0x0B, 0x00, 0x00, 0x00, 0x07, 0x01, 0x0F, 0x00, 0x00, 0x00, 0x0A]))⟩ ∧
    (after (.writeMultipleCoils ⟨0x000B, 0x0000, 0x0009, 0x01⟩ 0x0000 0x000A [0x02, 0xCD, 0x01]) (onPort 0 State.reset)).map (fun s => readBits s .coil 0 11) =
      some [true, false, true, true, false, false, true, true, true, false, false] ∧
    done (.writeMultipleCoils ⟨0x0026, 0x0000, 0x0008, 0x01⟩ 0x2708 0x000A [0x02, 0xFF, 0x03]) (onPort 0 State.reset) = some ⟨.srv 0, some .outOfRangeError, (.response (some [0x00, 0x26, 0x00, 0x00, 0x00, 0x03, 0x01, 0x8F, 0x01]))⟩ := by decide +kernel

/-- 95 section 7.1, rows 3, 24. -/
theorem test_write_multiple_registers :
    done (.writeMultipleRegisters ⟨0x0003, 0x0000, 0x000D, 0x01⟩ 0x0000 0x0003 [0x06, 0x00, 0x02, 0x00, 0x03, 0x00, 0x04]) (onPort 0 State.reset) = some ⟨.srv 0, none, (.response (some [0x00, 0x03, 0x00, 0x00, 0x00, 0x07, 0x01, 0x10, 0x00, 0x00, 0x00, 0x03]))⟩ ∧
    (after (.writeMultipleRegisters ⟨0x0003, 0x0000, 0x000D, 0x01⟩ 0x0000 0x0003 [0x06, 0x00, 0x02, 0x00, 0x03, 0x00, 0x04]) (onPort 0 State.reset)).map (fun s => readRegs s .hold 0 4) = some [2, 3, 4, 0] ∧
    done (.writeMultipleRegisters ⟨0x0017, 0x0000, 0x000B, 0x01⟩ 0x0000 0x0003 [0x04, 0x00, 0x02, 0x00, 0x03]) (onPort 0 State.reset) = some ⟨.srv 0, some .formatError, (.response (some [0x00, 0x17, 0x00, 0x00, 0x00, 0x03, 0x01, 0x90, 0x01]))⟩ := by decide +kernel

/-- 95 section 8.4, lines 7, 8. -/
theorem test_foreign_ports :
    done (.srvTx [0x00, 0x04, 0x00, 0x00, 0x00, 0x06, 0x01, 0x03, 0x00, 0x00, 0x00, 0x01]) State.reset = some ⟨.host, some .protocolError, .nothing⟩ ∧
    done (.storeSet 0x0001 (.reg .inpt 0)) (onPort 0 State.reset) = some ⟨.srv 0, some .protocolError, .nothing⟩ ∧
    (after (.storeSet 0x0001 (.reg .inpt 0)) (onPort 0 State.reset)).bind (fun s => s.statusOf (.srv 0)) = some 3 := by decide +kernel

/-! ### Witnesses: states and operands that meet an obligation's hypotheses -/

theorem witness_StepRunsDecodedOperation :
    (given [.op (.srv 1) { op := 0x40, bytes := [0x01] }]).pending =
      .op (.srv 1) { op := 0x40, bytes := [0x01] } :: [] ∧
    hasAgent (given [.op (.srv 1) { op := 0x40, bytes := [0x01] }]).cfg (.srv 1) = true ∧
    decode { op := 0x40, bytes := [0x01] } = .ok (.srvTx [0x01]) := ⟨rfl, rfl, rfl⟩

/-- An undefined selector beside the defined ones, SRV.TX on H, and a host operation on the last server port. -/
theorem witness_UndefinedOrForeignSelectorIsProtocolError :
    (given [.op .host { op := 0x06 }]).pending = .op .host { op := 0x06 } :: [] ∧
    hasAgent Config.default .host = true ∧ hasAgent Config.default (.srv 1) = true ∧
    (0x06 : Byte) ∉ ([0x00, 0x01, 0x02, 0x03, 0x04, 0x05, 0x10, 0x11, 0x12, 0x13, 0x14, 0x15, 0x16, 0x17,
      0x20, 0x21, 0x22, 0x30, 0x31, 0x40] : List Byte) ∧
    (Agent.host = .host ∧ (0x40 : Byte) = 0x40) ∧ (Agent.srv 1 ≠ .host ∧ (0x00 : Byte) ≠ 0x40) := by decide

/-- Port S_2 does not exist in the default configuration, S_1 does. -/
theorem witness_StepStopsOnlyOnMissingPort :
    hasAgent (given [.op (.srv 2) { op := 0x40 }]).cfg (.srv 2) = false ∧
    step (given [.op (.srv 2) { op := 0x40 }]) = .fault (.noSuchAgent (.srv 2)) ∧
    hasAgent (given []).cfg (.srv 1) = true := ⟨rfl, rfl, rfl⟩

theorem witness_DecodeOfEncodeIsIdentity :
    (Instr.writeMultipleRegisters hd0 0xFFFF 0xFFFF [0x02, 0xAB]).wf = true ∧ (Instr.srvTx [0x01]).wf = true := by
  decide

theorem witness_DecodedInstructionKeepsItsCommand :
    decode { op := 0x40, bytes := [0x01], fc := 0x07 } = .ok (.srvTx [0x01]) := rfl

/-- Reset leaves host port H as the issuer: the hypothesis of every statement about a host operation. -/
theorem witness_host_issuer : State.reset.issuer = .host := rfl

/-- Server port S_1, the last of the default configuration, as the issuer. -/
theorem witness_server_issuer : (onPort 1 State.reset).issuer = .srv 1 := rfl

theorem witness_CrcInitSetsInitialValue : ({ op := 0x00 } : Command).op = 0x00 ∧ State.reset.issuer = .host := ⟨rfl, rfl⟩

theorem witness_CrcUpdateAdvancesAccumulator :
    ({ op := 0x01, d := 0xFF } : Command).op = 0x01 ∧ State.reset.issuer = .host := ⟨rfl, rfl⟩

theorem witness_CrcReadReturnsAccumulator : ({ op := 0x02 } : Command).op = 0x02 ∧ State.reset.issuer = .host :=
  ⟨rfl, rfl⟩

theorem witness_CrcComputeAndAppend :
    ({ op := 0x03 } : Command).op = 0x03 ∧ ({ op := 0x04 } : Command).op = 0x04 ∧ State.reset.issuer = .host :=
  ⟨rfl, rfl, rfl⟩

/-- One byte, the empty body with its CRC FF FF, and the same with a wrong byte. -/
theorem witness_CrcCheckComparesLastTwoBytes :
    ({ op := 0x05 } : Command).op = 0x05 ∧ State.reset.issuer = .host ∧ ([0x00] : List Byte).length < 2 ∧
    crc16 [] = be16 0xFF 0xFF ∧ crc16 [] ≠ be16 0xFF 0xFE := by decide

/-- H's CRC.INIT and two CRC.UPDATEs, with a request of S_0, a CRC.COMPUTE of H and CRC.INIT on the wrong port between
them. -/
def interleaved : List Input :=
  [.op .host { op := 0x00 }, .op (.srv 0) { op := 0x40, bytes := [0x01] }, .op .host { op := 0x01, d := 0x01 },
   .op .host { op := 0x03, bytes := [0x05] }, .op (.srv 1) { op := 0x00 }, .op .host { op := 0x01, d := 0x03 }]

theorem witness_IncrementalCrcUnderInterleaving :
    (given (interleaved ++ [.op .host { op := 0x02 }])).pending = interleaved ++ .op .host { op := 0x02 } :: [] ∧
    decode { op := 0x02 } = .ok .crcRead ∧
    (∀ x ∈ interleaved, x ≠ .reset ∧ issuable Config.default x = true) ∧
    crcWrites interleaved = .crcInit :: [0x01, 0x03].map .crcUpdate := ⟨rfl, rfl, by decide, rfl⟩

theorem witness_CrcCheckAcceptsAppended : State.reset.issuer = .host := rfl

/-- The last byte of the frame, the CRC's high byte. -/
theorem witness_SingleBitFlipIsCrcError : State.reset.issuer = .host ∧ 4 < ([0x01, 0x02, 0x03] : List Byte).length + 2 := by
  decide

/-- The first and last single-frame function codes and the codes beside them. -/
theorem witness_RtuEncBuildsEightByteFrame :
    ({ op := 0x10 } : Command).op = 0x10 ∧ State.reset.issuer = .host ∧
    (1 ≤ (0x01 : Byte).toNat ∧ (0x01 : Byte).toNat ≤ 6) ∧ (1 ≤ (0x06 : Byte).toNat ∧ (0x06 : Byte).toNat ≤ 6) ∧
    ¬ (1 ≤ (0x00 : Byte).toNat ∧ (0x00 : Byte).toNat ≤ 6) ∧ ¬ (1 ≤ (0x07 : Byte).toNat ∧ (0x07 : Byte).toNat ≤ 6) := by
  decide

theorem witness_RtuEncwcBuildsWriteCoilsFrame :
    ({ op := 0x11 } : Command).op = 0x11 ∧ State.reset.issuer = .host ∧ ([] : List Bool).length ≤ 2040 ∧
    (List.replicate 2040 true).length ≤ 2040 ∧ 2040 < (List.replicate 2041 true).length :=
  ⟨rfl, rfl, by decide, List.length_replicate.le, (by rw [List.length_replicate]; decide)⟩

theorem witness_RtuEncwrBuildsWriteRegistersFrame :
    ({ op := 0x12 } : Command).op = 0x12 ∧ State.reset.issuer = .host ∧ ([] : List Half).length ≤ 127 ∧
    (List.replicate 127 (0 : Half)).length ≤ 127 ∧ 127 < (List.replicate 128 (0 : Half)).length :=
  ⟨rfl, rfl, by decide, List.length_replicate.le, (by rw [List.length_replicate]; decide)⟩

/-- Frames of 95_test_vectors.md section 3.3: too short, wrong CRC, too short for its count, well-formed. -/
theorem witness_RtuDecChecksInOrder :
    ({ op := 0x13 } : Command).op = 0x13 ∧ State.reset.issuer = .host ∧
    ([0x01, 0x03, 0x02, 0x04] : List Byte).length < 5 ∧
    (5 ≤ ([0x01, 0x03, 0x00, 0x20, 0xF1] : List Byte).length ∧ crc16 [0x01, 0x03, 0x00] ≠ be16 0xF1 0x20) ∧
    (5 ≤ ([0x01, 0x83, 0x02, 0xC0, 0xF1] : List Byte).length ∧ crc16 [0x01, 0x83, 0x02] = be16 0xF1 0xC0 ∧
      ([0x01, 0x83, 0x02, 0xC0, 0xF1] : List Byte).length < 5 + (0x02 : Byte).toNat) ∧
    (5 + (0x00 : Byte).toNat ≤ ([0x01, 0x03, 0x00, 0x20, 0xF0] : List Byte).length ∧
      crc16 [0x01, 0x03, 0x00] = be16 0xF0 0x20) := by decide +kernel

theorem witness_RtuRoundTripAndBitFlip :
    State.reset.issuer = .host ∧ (List.replicate 255 (0 : Byte)).length ≤ 255 ∧
    259 < (List.replicate 255 (0 : Byte)).length + 5 :=
  ⟨rfl, List.length_replicate.le, (by rw [List.length_replicate]; decide)⟩

theorem witness_RtuDecOfEchoAndException :
    State.reset.issuer = .host ∧ (hi8 0x03FF).toNat ≤ 3 ∧ 4 ≤ (hi8 0x0400).toNat ∧ 1 ≤ (0x01 : Byte).toNat := by decide

theorem witness_CoilPackingIsLsbFirst :
    ({ op := 0x14 } : Command).op = 0x14 ∧ ({ op := 0x15 } : Command).op = 0x15 ∧ State.reset.issuer = .host ∧
    (8 : Half).toNat ≤ 8 * ([0x4D] : List Byte).length ∧ 8 * ([0x4D] : List Byte).length < (9 : Half).toNat := by decide

theorem witness_RegisterPackingIsBigEndian :
    ({ op := 0x16 } : Command).op = 0x16 ∧ ({ op := 0x17 } : Command).op = 0x17 ∧ State.reset.issuer = .host ∧
    ([0x04, 0xD2] : List Byte).length % 2 = 0 ∧ ([0x04] : List Byte).length % 2 = 1 := by decide

theorem witness_PackingRoundTrips : State.reset.issuer = .host ∧ (2 : Half).toNat = [true, false].length := by decide

theorem witness_MbapDecReadsFixedFields :
    ({ op := 0x20 } : Command).op = 0x20 ∧ State.reset.issuer = .host ∧ (List.replicate 11 (0 : Byte)).length < 12 := by
  decide

/-- A request of 6 and one of 7 bytes; a payload of 65532 and one of 65533 bytes. -/
theorem witness_MbapEncBuildsResponse :
    ({ op := 0x21 } : Command).op = 0x21 ∧ State.reset.issuer = .host ∧
    ((List.replicate 6 (0 : Byte)).length < 7 ∨ 65532 < (List.replicate 0 (0 : Byte)).length) ∧
    ((List.replicate 7 (0 : Byte)).length < 7 ∨ 65532 < (List.replicate 65533 (0 : Byte)).length) ∧
    7 ≤ (List.replicate 7 (0 : Byte)).length ∧ (List.replicate 65532 (0 : Byte)).length ≤ 65532 :=
  ⟨rfl, rfl, .inl (by rw [List.length_replicate]; decide), .inr (by rw [List.length_replicate]; decide), List.length_replicate.ge, List.length_replicate.le⟩

theorem witness_MbapErrBuildsErrorFrame :
    ({ op := 0x22 } : Command).op = 0x22 ∧ State.reset.issuer = .host ∧ (List.replicate 6 (0 : Byte)).length < 7 ∧
    7 ≤ (List.replicate 7 (0 : Byte)).length ∧ ((onPort 1 State.reset).statusOf (.srv 1)).isSome = true ∧
    done (.srvTx (List.replicate 8 0)) (onPort 1 State.reset) =
      some ⟨.srv 1, some .formatError, .response (some [0, 0, 0, 0, 0, 3, 0, 0x80, 1])⟩ := by decide

theorem witness_MbapDecodeOfEncodedResponse :
    State.reset.issuer = .host ∧ 12 ≤ (List.replicate 12 (0 : Byte)).length ∧
    (List.replicate 65532 (0 : Byte)).length ≤ 65532 ∧ 12 ≤ 8 + ([0x03, 0x00, 0x01, 0x02] : List Byte).length := by
  refine ⟨rfl, ?_, ?_, by decide⟩ <;> rw [List.length_replicate]

/-- The last element of a bank and the index past it. -/
theorem witness_StoreGetReadsElement :
    (∀ b ∈ [(0 : BitVec 2), 1, 2, 3], ({ op := 0x30, b := b } : Command).op = 0x30 ∧ ({ op := 0x30, b := b } : Command).b = b) ∧
    State.reset.issuer = .host ∧
    (0x270F : Half).toNat < State.reset.cfg.cap (.bit .coil) ∧
    State.reset.cfg.cap (.bit .coil) ≤ (0x2710 : Half).toNat := by decide

theorem witness_StoreSetWritesElement :
    (∀ b ∈ [(0 : BitVec 2), 1, 2, 3], ({ op := 0x31, b := b } : Command).op = 0x31 ∧ ({ op := 0x31, b := b } : Command).b = b) ∧
    State.reset.issuer = .host ∧
    (0x270F : Half).toNat < State.reset.cfg.cap (Element.reg .inpt 0xBEEF).bank ∧
    State.reset.cfg.cap (Element.reg .inpt 0xBEEF).bank ≤ (0x2710 : Half).toNat ∧
    (after (.storeSet 0x270F (readElement State.reset (.reg .inpt) 0x270F)) State.reset).isSome = true ∧
    (∀ i v, Instr.crcInit ≠ .storeSet i v) ∧ (after .crcInit State.reset).isSome = true :=
  ⟨by decide, rfl, by decide, by decide, by decide, (by intro i v h; cases h), by decide⟩

/-- Between STORE.SET and STORE.GET of HOLD[5]: a server write of HOLD[6], a host write of DISC[5], a server write that
names HOLD[5] and fails on its shape, and a wrong-port STORE.SET. -/
def betweenSetAndGet : List Input :=
  [.op (.srv 0) { op := 0x40, bytes := [0, 1, 0, 0, 0, 6, 1, 0x06, 0, 6, 0, 9] },
   .op .host { op := 0x31, b := 1, i := 5, vBit := true },
   .op (.srv 1) { op := 0x40, bytes := [0, 1, 0, 0, 0, 6, 1, 0x10, 0, 5, 0, 1] },
   .op (.srv 1) { op := 0x31, b := 2, i := 5, vReg := 9 }]

/-- STORE.SET of HOLD[5], those inputs, STORE.GET of HOLD[5]. -/
def setAndGet (between : List Input) : State :=
  given (.op .host { op := 0x31, b := 2, i := 5, vReg := 7 } :: (between ++ [.op .host { op := 0x30, b := 2, i := 5 }]))

/-- The agent and error kind of the last completion after k steps. -/
def outcomeAfter (k : Nat) (s : State) : Option (Agent × Option ErrKind) :=
  match Host.Core.run Sys2Proof.core k s with
  | .next t => (State.completion t).map fun c => (c.agent, c.error)
  | .fault _ => none
  | .refused _ => none

/-- The one input that names the element, the third, ends with an error kind. -/
theorem witness_StoreSetThenGet :
    (setAndGet betweenSetAndGet).pending = .op .host { op := 0x31, b := 2, i := 5, vReg := 7 } ::
      (betweenSetAndGet ++ .op .host { op := 0x30, b := 2, i := 5 } :: []) ∧
    decode { op := 0x31, b := 2, i := 5, vReg := 7 } = .ok (.storeSet 5 (.reg .hold 7)) ∧
    decode { op := 0x30, b := 2, i := 5 } = .ok (.storeGet (Element.reg .hold 7).bank 5) ∧
    (5 : Half).toNat < (setAndGet betweenSetAndGet).cfg.cap (Element.reg .hold 7).bank ∧
    (∀ x ∈ betweenSetAndGet, x ≠ .reset ∧ issuable (setAndGet betweenSetAndGet).cfg x = true) ∧
    (∀ (k : Nat) (a : Agent) (c : Command) (j : Instr) (u : State) (r : Result),
      betweenSetAndGet[k]? = some (.op a c) → decode c = .ok j →
      namesElement a j (Element.reg .hold 7).bank (5 : Half).toNat = true →
      Host.Core.run Sys2Proof.core (k + 2) (setAndGet betweenSetAndGet) = .next u → u.completion = some ⟨a, none, r⟩ →
      readElement u (Element.reg .hold 7).bank (5 : Half).toNat = .reg .hold 7) := by
  refine ⟨rfl, rfl, rfl, by decide, by decide, fun k a c j u r hk hd hn hr hc => ?_⟩
  match k, hk with
  | 0, hk => cases hk; cases hd; exact absurd hn (by decide)
  | 1, hk => cases hk; cases hd; exact absurd hn (by decide)
  | 2, hk =>
    have h4 : outcomeAfter 4 (setAndGet betweenSetAndGet) = some (.srv 1, some .formatError) := by decide +kernel
    simp [outcomeAfter, hr, hc] at h4
  | 3, hk => cases hk; cases hd; exact absurd hn (by decide)
  | _ + 4, hk => cases hk

/-- With nothing between them the last two hypotheses of the statement hold of the empty list. -/
theorem witness_StoreSetThenGet_adjacent :
    (setAndGet []).pending = .op .host { op := 0x31, b := 2, i := 5, vReg := 7 } ::
      ([] ++ .op .host { op := 0x30, b := 2, i := 5 } :: []) ∧ (∀ x ∈ ([] : List Input), x ≠ .reset) ∧
    ([] : List Input)[0]? = none := ⟨rfl, by simp, rfl⟩

/-- Two states with the same store; and a host write of the value an element holds, at the last index. -/
theorem witness_CanonicalStoreIsItsReads :
    ((withHold [(3, 5)]).cfg = (onPort 0 (withHold [(3, 5)])).cfg ∧
      (withHold [(3, 5)]).mem.wf (withHold [(3, 5)]).cfg ∧
      (∀ b i, i < Config.default.cap b →
        readElement (withHold [(3, 5)]) b i = readElement (onPort 0 (withHold [(3, 5)])) b i)) ∧
    (withHold [(9999, 5)]).mem.wf (withHold [(9999, 5)]).cfg ∧
    (0x270F : Half).toNat < (withHold [(9999, 5)]).cfg.cap (.reg .hold) ∧
    (withHold [(9999, 5)]).issuer = .host ∧
    ∃ t, exec (.storeSet 0x270F (readElement (withHold [(9999, 5)]) (.reg .hold) 9999)) (withHold [(9999, 5)]) = .next t :=
  ⟨⟨rfl, by decide, fun _ _ _ => rfl⟩, by decide, by decide, rfl, _, rfl⟩

theorem witness_ShortRequestsAreFormatErrors :
    (onPort 1 State.reset).issuer = .srv 1 ∧ (List.replicate 7 (0 : Byte)).length < 8 ∧
    8 ≤ (List.replicate 8 (0 : Byte)).length ∧ (List.replicate 11 (0 : Byte)).length < 12 ∧
    done (.srvTx (List.replicate 8 0)) (onPort 1 State.reset) =
      some ⟨.srv 1, some .formatError, .response (some [0, 0, 0, 0, 0, 3, 0, 0x80, 1])⟩ := by decide

theorem witness_IllegalFunctionCodeIsProtocolError :
    (onPort 1 State.reset).issuer = .srv 1 ∧
    12 ≤ ([0x12, 0x34, 0x00, 0x00, 0x00, 0x06, 0x01, 0x99, 0x00, 0x00, 0x00, 0x01] : List Byte).length ∧
    byteAt [0x12, 0x34, 0x00, 0x00, 0x00, 0x06, 0x01, 0x99, 0x00, 0x00, 0x00, 0x01] 7 ∉
      ([0x01, 0x02, 0x03, 0x04, 0x05, 0x06, 0x0F, 0x10] : List Byte) := by decide

theorem witness_SrvTxIsItsFunctionInstruction :
    12 ≤ ([0x00, 0x01, 0x00, 0x00, 0x00, 0x06, 0x01, 0x10, 0x00, 0x00, 0x00, 0x01] : List Byte).length ∧
    byteAt [0x00, 0x01, 0x00, 0x00, 0x00, 0x06, 0x01, 0x10, 0x00, 0x00, 0x00, 0x01] 7 ∈
      ([0x01, 0x02, 0x03, 0x04, 0x05, 0x06, 0x0F, 0x10] : List Byte) := by decide

/-- 2040 bits from 0, the last bit, no bits at the last index; one bit too many, one index too far, none past the
end. The same ranges meet and miss the acceptable requests of SRV.TX. -/
theorem witness_ReadBitsFunctionCodes :
    (onPort 1 State.reset).issuer = .srv 1 ∧ BitBank.disc ∈ [BitBank.coil, BitBank.disc] ∧
    (∀ r ∈ [((0 : Nat), (2040 : Nat)), (9999, 1), (9999, 0)],
      (r.1 < State.reset.cfg.cap (.bit .disc) ∧ r.1 + r.2 ≤ State.reset.cfg.cap (.bit .disc)) ∧ r.2 ≤ 2040) ∧
    (∀ r ∈ [((0 : Nat), (2041 : Nat)), (9999, 2), (10000, 0)],
      ¬ ((r.1 < State.reset.cfg.cap (.bit .disc) ∧ r.1 + r.2 ≤ State.reset.cfg.cap (.bit .disc)) ∧ r.2 ≤ 2040)) := by
  decide

theorem witness_ReadRegistersFunctionCodes :
    (onPort 1 State.reset).issuer = .srv 1 ∧ RegBank.inpt ∈ [RegBank.hold, RegBank.inpt] ∧
    (∀ r ∈ [((0 : Nat), (127 : Nat)), (9999, 1), (9999, 0)],
      (r.1 < State.reset.cfg.cap (.reg .inpt) ∧ r.1 + r.2 ≤ State.reset.cfg.cap (.reg .inpt)) ∧ r.2 ≤ 127) ∧
    (∀ r ∈ [((0 : Nat), (128 : Nat)), (9999, 2), (10000, 0)],
      ¬ ((r.1 < State.reset.cfg.cap (.reg .inpt) ∧ r.1 + r.2 ≤ State.reset.cfg.cap (.reg .inpt)) ∧ r.2 ≤ 127)) := by
  decide

/-- On at the last index, off past it, and a value that is neither. -/
theorem witness_WriteSingleCoilFunctionCode :
    (onPort 1 State.reset).issuer = .srv 1 ∧ ((0xFF00 : Half) = 0xFF00 ∨ (0xFF00 : Half) = 0x0000) ∧
    (0x270F : Half).toNat < State.reset.cfg.cap (.bit .coil) ∧ ((0x0000 : Half) = 0xFF00 ∨ (0x0000 : Half) = 0x0000) ∧
    State.reset.cfg.cap (.bit .coil) ≤ (0x2710 : Half).toNat ∧ (0x0001 : Half) ≠ 0xFF00 ∧ (0x0001 : Half) ≠ 0x0000 := by
  decide

theorem witness_WriteSingleRegisterFunctionCode :
    (onPort 1 State.reset).issuer = .srv 1 ∧ (0x270F : Half).toNat < State.reset.cfg.cap (.reg .hold) ∧
    State.reset.cfg.cap (.reg .hold) ≤ (0x2710 : Half).toNat := by decide

/-- Ten coils to the last ten indices, the same one index later, and a request without a byte count. -/
theorem witness_WriteMultipleCoilsFunctionCode :
    (onPort 1 State.reset).issuer = .srv 1 ∧
    (1 + (byteAt [0x02, 0xFF, 0x03] 0).toNat ≤ ([0x02, 0xFF, 0x03] : List Byte).length ∧
      (byteAt [0x02, 0xFF, 0x03] 0).toNat = ((0x000A : Half).toNat + 7) / 8) ∧
    (9990 < State.reset.cfg.cap (.bit .coil) ∧ 9990 + (0x000A : Half).toNat ≤ State.reset.cfg.cap (.bit .coil)) ∧
    ¬ (9991 < State.reset.cfg.cap (.bit .coil) ∧ 9991 + (0x000A : Half).toNat ≤ State.reset.cfg.cap (.bit .coil)) ∧
    ¬ (1 + (byteAt [] 0).toNat ≤ ([] : List Byte).length ∧ (byteAt [] 0).toNat = ((0x0000 : Half).toNat + 7) / 8) := by
  decide

theorem witness_WriteMultipleRegistersFunctionCode :
    (onPort 1 State.reset).issuer = .srv 1 ∧
    (1 + (byteAt [0x02, 0xAB, 0xCD] 0).toNat ≤ ([0x02, 0xAB, 0xCD] : List Byte).length ∧
      (byteAt [0x02, 0xAB, 0xCD] 0).toNat = 2 * (0x0001 : Half).toNat) ∧
    (9999 < State.reset.cfg.cap (.reg .hold) ∧ 9999 + (0x0001 : Half).toNat ≤ State.reset.cfg.cap (.reg .hold)) ∧
    ¬ (10000 < State.reset.cfg.cap (.reg .hold) ∧ 10000 + (0x0001 : Half).toNat ≤ State.reset.cfg.cap (.reg .hold)) ∧
    ¬ (1 + (byteAt [0x02, 0xAB] 0).toNat ≤ ([0x02, 0xAB] : List Byte).length ∧
      (byteAt [0x02, 0xAB] 0).toNat = 2 * (0x0001 : Half).toNat) := by decide

theorem witness_SrvTxSucceedsExactlyOnAcceptableRequests :
    (onPort 1 State.reset).issuer = .srv 1 ∧
    (after (.srvTx (requestFrame hd0 Fn.writeSingleCoil.byte 0x270F 0xFF00 [])) (onPort 1 State.reset)).isSome = true :=
  ⟨rfl, by decide +kernel⟩

theorem witness_EveryRequestWithFunctionCodeIsAnswered :
    (onPort 1 State.reset).issuer = .srv 1 ∧ 8 ≤ (List.replicate 8 (0 : Byte)).length := by decide

theorem witness_RegistersWrittenAreReadByEveryPort :
    (onPort 0 State.reset).issuer = .srv 0 ∧
    ∃ t r, exec (.writeMultipleRegisters hd0 9998 2 [0x04, 0xAB, 0xCD, 0x12, 0x34]) (onPort 0 State.reset) = .next t ∧
      t.completion = some ⟨.srv 0, none, r⟩ := ⟨rfl, _, _, rfl, rfl⟩

theorem witness_HeaderSelectsNothing :
    (onPort 0 State.reset).issuer = .srv 0 ∧
    ∃ t, exec (Fn.writeSingleRegister.instr hd0 5 6 []) (onPort 0 State.reset) = .next t := ⟨rfl, _, rfl⟩

/-- A good state that is not the reset state, and its step. -/
def goodState : State :=
  { withHold [(3, 5), (9999, 1)] with
    statusS := [3, 4]
    issuer := .srv 1
    completion := some ⟨.srv 1, some .crcError, .nothing⟩
    pending := [.op (.srv 0) { op := 0x40, bytes := [0x01] }] }

theorem witness_StepKeepsInvariant : Inv goodState ∧ ∃ t, step goodState = .next t := ⟨by decide, _, rfl⟩

/-- Capacities 1 and 65536, one port, and an INIT that is not zero. -/
theorem witness_ResetSatisfiesInvariant :
    configWf ⟨1, 65536, 10000, 65536, [(0, true)], [], [(9999, 7)], [(65535, 1)], 1⟩ := by decide

theorem witness_ResetSetsWholeState : { goodState with pending := [.reset] }.pending = .reset :: [] := rfl

theorem witness_FailedOperationHasNoEffect :
    ∃ t r, exec (.storeSet 0x2710 (.reg .hold 7)) State.reset = .next t ∧
      t.completion = some ⟨State.reset.issuer, some .outOfRangeError, r⟩ := ⟨_, _, rfl, rfl⟩

/-- CRC changes, a HOLD element changes under H, a COIL and a HOLD element change under S_0. -/
theorem witness_WriteRightsFollowThePort :
    (after (.crcUpdate 0x01) State.reset).map (fun t => decide (t.crc ≠ State.reset.crc)) = some true ∧
    (after (.storeSet 1 (.reg .inpt 7)) State.reset).map
      (fun t => decide (readElement t (.reg .inpt) 1 ≠ readElement State.reset (.reg .inpt) 1)) = some true ∧
    (after (.writeMultipleCoils hd0 0 1 [0x01, 0x01]) (onPort 0 State.reset)).map
      (fun t => decide (readElement t (.bit .coil) 0 ≠ readElement State.reset (.bit .coil) 0)) = some true ∧
    (after (.writeSingleRegister hd0 0 1 []) (onPort 0 State.reset)).map
      (fun t => decide (readElement t (.reg .hold) 0 ≠ readElement State.reset (.reg .hold) 0)) = some true := by
  decide +kernel

/-- Each outcome of a host operation and of a server operation, with STATUS of an agent that exists. -/
theorem witness_OperationWritesOnlyItsOwnStatus :
    (State.reset.statusOf State.reset.issuer).isSome = true ∧
    ((onPort 1 State.reset).statusOf (onPort 1 State.reset).issuer).isSome = true ∧
    (done (.crcCheck [0xFF, 0xFF]) State.reset).map Completion.error = some none ∧
    (done (.crcCheck [0x00]) State.reset).map Completion.error = some (some .formatError) ∧
    (done (.storeGet (.bit .coil) 0xFFFF) State.reset).map Completion.error = some (some .outOfRangeError) ∧
    (done (.rtuEnc 0 0x07 0 0) State.reset).map Completion.error = some (some .protocolError) ∧
    (done (.crcCheck [0x00, 0x00]) State.reset).map Completion.error = some (some .crcError) := by decide +kernel

theorem witness_EveryIssuedOperationCompletesInOrder :
    (∀ x ∈ (given (.reset :: interleaved)).pending, issuable (given (.reset :: interleaved)).cfg x = true) ∧
    (given (.reset :: interleaved)).pending[6]? = some (.op .host { op := 0x01, d := 0x03 }) := by decide

/-- Each error kind that is ever reported, and the operation that reports it. -/
theorem witness_ErrorKindsHaveTheirOperations :
    done (.crcCheck [0x00, 0x00]) State.reset = some ⟨.host, some .crcError, .nothing⟩ ∧
    done (.storeGet (.bit .coil) 0xFFFF) State.reset = some ⟨.host, some .outOfRangeError, .nothing⟩ ∧
    done (.rtuEnc 0 0x07 0 0) State.reset = some ⟨.host, some .protocolError, .nothing⟩ ∧
    done (.crcCheck [0x00]) State.reset = some ⟨.host, some .formatError, .nothing⟩ := by decide +kernel

end Sys2Proof.Tests
end

section
/-! PROOFS. What any operation may change, what it must leave, what it cannot read, and that the block takes its
inputs one by one (10_state.md). -/

namespace Sys2Proof.Machine

/-! ### The frame of an operation's effect -/

/-- No effect touches a STATUS, the configuration, the inputs or the issuer. -/
theorem effect_frame {i : Instr} {s s' : State} (h : Effect i s s') :
    (∀ a, s'.statusOf a = s.statusOf a) ∧ s'.cfg = s.cfg ∧ s'.pending = s.pending ∧ s'.issuer = s.issuer := by
  rcases h with rfl | ⟨-, -, rfl⟩ | ⟨-, d, -, rfl⟩ | ⟨-, k, v, -, -, rfl⟩ | ⟨-, -, a, x, -, rfl⟩ | ⟨-, -, a, x, -, rfl⟩
  · exact ⟨fun _ => rfl, rfl, rfl, rfl⟩
  · exact ⟨statusOf_congr _ _ rfl rfl, rfl, rfl, rfl⟩
  · exact ⟨statusOf_congr _ _ rfl rfl, rfl, rfl, rfl⟩
  · simp
  · simp
  · simp

/-- Whatever the instruction and the state, the operation completes, and not with TimeoutError (60_exceptions.md
R245). -/
theorem exec_completes (i : Instr) (s : State) :
    ∃ t e r, exec i s = .next t ∧ Completes s t e r ∧ e ≠ some .timeoutError := by
  rcases exec_ends i s with ⟨k, r, hk, ho⟩ | ⟨s', r, ho, hx⟩
  · exact ⟨_, _, _, ho, (onlyCompletes_complete s (some k) r).toCompletes, by simpa using hk⟩
  · obtain ⟨hst, hcfg, hpend, hiss⟩ := effect_frame hx
    exact ⟨_, _, _, ho, completes_complete hst hcfg hpend hiss none r, by simp⟩

/-- Settles O53: every instruction completes, and `statusCode` numbers the outcomes as R240's table does. -/
theorem operationWritesOnlyItsOwnStatus : Obligations.OperationWritesOnlyItsOwnStatus := by
  intro i s
  obtain ⟨t, e, r, ho, hc, -⟩ := exec_completes i s
  refine ⟨t, e, r, ho, hc, fun hport => ?_⟩
  have hst : t.statusOf s.issuer = some (statusCode e) := hc.status hport
  refine ⟨?_, ?_, ?_, ?_, ?_⟩ <;> rintro rfl <;> exact hst

/-! ### Who may change CRC and the banks -/

/-- A ranged write of a bit bank leaves every other bank alone. -/
theorem readElement_writeBits_other (s : State) (c : BitBank) (a : Nat) (x : List Bool) (b : Bank) (j : Nat)
    (h : b ≠ .bit c) : readElement (writeBits s c a x) b j = readElement s b j := by
  cases b with
  | bit b =>
    have hb : b ≠ c := fun e => h (congrArg Bank.bit e)
    simp [readElement, readBit_writeBits, hb]
  | reg b => simp [readElement]

/-- A ranged write of a register bank leaves every other bank alone. -/
theorem readElement_writeRegs_other (s : State) (c : RegBank) (a : Nat) (x : List Half) (b : Bank) (j : Nat)
    (h : b ≠ .reg c) : readElement (writeRegs s c a x) b j = readElement s b j := by
  cases b with
  | bit b => simp [readElement]
  | reg b =>
    have hb : b ≠ c := fun e => h (congrArg Bank.reg e)
    simp [readElement, readReg_writeRegs, hb]

/-- The effects that change CRC (10_state.md R22). -/
theorem effect_crc_ne {i : Instr} {s s' : State} (h : Effect i s s') (hne : s'.crc ≠ s.crc) :
    s.issuer = .host ∧ (i = .crcInit ∨ ∃ d, i = .crcUpdate d) := by
  rcases h with rfl | ⟨hs, hi, -⟩ | ⟨hs, d, hi, -⟩ | ⟨-, k, v, -, -, rfl⟩ | ⟨-, -, a, x, -, rfl⟩ | ⟨-, -, a, x, -, rfl⟩
  · exact absurd rfl hne
  · exact ⟨hs, .inl hi⟩
  · exact ⟨hs, .inr ⟨d, hi⟩⟩
  · exact absurd (writeElement_crc ..) hne
  · exact absurd (writeBits_crc ..) hne
  · exact absurd (writeRegs_crc ..) hne

/-- The effects that change an element (10_state.md R25). -/
theorem effect_readElement_ne {i : Instr} {s s' : State} {b : Bank} {j : Nat} (h : Effect i s s')
    (hne : readElement s' b j ≠ readElement s b j) :
    (s.issuer = .host ∧ ∃ k v, i = .storeSet k v ∧ v.bank = b ∧ k.toNat = j) ∨
    ((∃ p, s.issuer = .srv p) ∧ b = .bit .coil ∧ (requestFc i = some 0x05 ∨ requestFc i = some 0x0F)) ∨
    ((∃ p, s.issuer = .srv p) ∧ b = .reg .hold ∧ (requestFc i = some 0x06 ∨ requestFc i = some 0x10)) := by
  rcases h with rfl | ⟨-, -, rfl⟩ | ⟨-, d, -, rfl⟩ | ⟨hs, k, v, hi, -, rfl⟩ | ⟨hs, hf, a, x, -, rfl⟩ |
    ⟨hs, hf, a, x, -, rfl⟩
  · exact absurd rfl hne
  · exact absurd (readElement_congr rfl rfl b j) hne
  · exact absurd (readElement_congr rfl rfl b j) hne
  · by_cases hb : b = v.bank ∧ j = k.toNat
    · exact .inl ⟨hs, k, v, hi, hb.1.symm, hb.2.symm⟩
    · exact absurd (by rw [readElement_writeElement, if_neg hb]) hne
  · have hb : b = .bit .coil := not_imp_comm.mp (readElement_writeBits_other s .coil a x b j) hne
    exact .inr (.inl ⟨hs, hb, hf⟩)
  · have hb : b = .reg .hold := not_imp_comm.mp (readElement_writeRegs_other s .hold a x b j) hne
    exact .inr (.inr ⟨hs, hb, hf⟩)

/-- Settles O52: an operation that fails changes neither CRC nor store, and one that succeeds has one of the listed
effects. -/
theorem writeRightsFollowThePort : Obligations.WriteRightsFollowThePort := by
  intro i s t ht
  rcases exec_ends i s with ⟨k, r, -, ho⟩ | ⟨s', r, ho, hx⟩
  · cases ho.symm.trans ht
    exact ⟨fun hne => absurd (complete_crc ..) hne, fun b j hne => absurd (readElement_complete ..) hne⟩
  · cases ho.symm.trans ht
    rw [complete_crc]
    refine ⟨effect_crc_ne hx, fun b j hne => effect_readElement_ne hx ?_⟩
    rwa [readElement_complete] at hne

/-! ### STATUS and the last completion are never read -/

/-- The state with every STATUS and the last completion replaced. -/
def State.withStatus (s : State) (h : Byte) (ss : List Byte) (c : Option Completion) : State :=
  { s with statusH := h, statusS := ss, completion := c }

/-- Two outcomes that both go on, with the same completion, store and CRC. -/
def SameEffect (o o' : Outcome) : Prop :=
  ∃ t t', o = .next t ∧ o' = .next t' ∧ t'.completion = t.completion ∧ t'.mem = t.mem ∧ t'.crc = t.crc

/-- A handler's answer with every STATUS and the last completion of its state replaced. -/
def Reply.withStatus (r : Reply) (h : Byte) (ss : List Byte) (c : Option Completion) : Reply :=
  match r with
  | .ok p s => .ok p (s.withStatus h ss c)
  | .fail k => .fail k

theorem sameEffect_ite {p : Prop} [Decidable p] {o₁ o₂ o₁' o₂' : Outcome} (h₁ : SameEffect o₁ o₁')
    (h₂ : SameEffect o₂ o₂') : SameEffect (if p then o₁ else o₂) (if p then o₁' else o₂') := by
  by_cases hp : p
  · rwa [if_pos hp, if_pos hp]
  · rwa [if_neg hp, if_neg hp]

section
variable (s : State) (h : Byte) (ss : List Byte) (c : Option Completion)

/-- A completion shows the issuer and the outcome, and keeps store and CRC. -/
theorem sameEffect_complete (e : Option ErrKind) (r : Result) :
    SameEffect (.next (complete s e r)) (.next (complete (s.withStatus h ss c) e r)) :=
  ⟨_, _, rfl, rfl, rfl, by simp [State.withStatus], by simp [State.withStatus]⟩

theorem sameEffect_settle (x : Except ErrKind Result) :
    SameEffect (settle x s) (settle x (s.withStatus h ss c)) := by
  cases x with
  | ok v => exact sameEffect_complete s h ss c none v
  | error k => exact sameEffect_complete s h ss c (some k) .nothing

variable {s h ss c}

/-- Port rights depend on the issuer alone (30_encoding.md R101). -/
theorem sameEffect_hostOnly {o o' : Outcome} (ho : SameEffect o o') :
    SameEffect (hostOnly s o) (hostOnly (s.withStatus h ss c) o') := by
  cases hs : s.issuer with
  | host => rwa [hostOnly_host hs, hostOnly_host (s := s.withStatus h ss c) hs]
  | srv p =>
    rw [hostOnly_srv hs, hostOnly_srv (s := s.withStatus h ss c) hs]
    exact sameEffect_complete ..

theorem sameEffect_serverOnly {o o' : Outcome} (ho : SameEffect o o') :
    SameEffect (serverOnly s o) (serverOnly (s.withStatus h ss c) o') := by
  cases hs : s.issuer with
  | host =>
    rw [serverOnly_host hs, serverOnly_host (s := s.withStatus h ss c) hs]
    exact sameEffect_complete ..
  | srv p => rwa [serverOnly_srv hs, serverOnly_srv (s := s.withStatus h ss c) hs]

variable (s h ss c)

/-- A handler passes STATUS and the last completion through. -/
theorem handler_withStatus (g : Fn) (q : List Byte) (a n : Half) :
    handler g q a n (s.withStatus h ss c) = (handler g q a n s).withStatus h ss c := by
  cases g with
  | readCoils | readDiscreteInputs =>
    simp only [handler, readBitsReply, apply_ite (Reply.withStatus · h ss c)]
    rfl
  | readHoldingRegisters | readInputRegisters =>
    simp only [handler, readRegsReply, apply_ite (Reply.withStatus · h ss c)]
    rfl
  | writeSingleCoil =>
    simp only [handler, writeCoilReply]
    cases coilValue n with
    | error k => rfl
    | ok v =>
      simp only [apply_ite (Reply.withStatus · h ss c)]
      rfl
  | writeSingleRegister =>
    simp only [handler, writeRegReply, apply_ite (Reply.withStatus · h ss c)]
    rfl
  | writeMultipleCoils =>
    simp only [handler, writeCoilsReply]
    cases multiplePayload q (ceil8 n.toNat) with
    | error k => rfl
    | ok p =>
      simp only [apply_ite (Reply.withStatus · h ss c)]
      cases unpackCoils p n.toNat <;> rfl
  | writeMultipleRegisters =>
    simp only [handler, writeRegsReply]
    cases multiplePayload q (2 * n.toNat) with
    | error k => rfl
    | ok p =>
      simp only [apply_ite (Reply.withStatus · h ss c)]
      cases unpackRegs p <;> rfl

/-- The end of a transaction after its handler. -/
theorem sameEffect_conclude (q : List Byte) (fc : Byte) (g : Fn) (a n : Half) :
    SameEffect (conclude q fc (handler g q a n s) s)
      (conclude q fc (handler g q a n (s.withStatus h ss c)) (s.withStatus h ss c)) := by
  rw [handler_withStatus]
  cases handler g q a n s with
  | ok p s' => exact sameEffect_complete ..
  | fail k => exact sameEffect_complete ..

/-- The eight function-code instructions. -/
theorem sameEffect_exec_fn (g : Fn) (m : MbapHeader) (a n : Half) (rest : List Byte) :
    SameEffect (exec (g.instr m a n rest) s) (exec (g.instr m a n rest) (s.withStatus h ss c)) := by
  rw [exec_fn, exec_fn]
  exact sameEffect_serverOnly (sameEffect_conclude ..)

/-- SRV.TX, in the order of 44_function_codes.md R211: a short request, one below 12 bytes, an illegal function
code, a handler. -/
theorem sameEffect_execSrvTx (q : List Byte) :
    SameEffect (execSrvTx q s) (execSrvTx q (s.withStatus h ss c)) := by
  refine sameEffect_serverOnly (sameEffect_ite (sameEffect_complete ..) ?_)
  cases mbapDecode q with
  | error k => exact sameEffect_complete ..
  | ok f =>
    obtain ⟨unit, fc, a, n⟩ := f
    dsimp only
    cases fnOf fc with
    | none => exact sameEffect_complete ..
    | some g => exact sameEffect_conclude ..

theorem sameEffect_execStoreGet (b : Bank) (k : Half) :
    SameEffect (execStoreGet b k s) (execStoreGet b k (s.withStatus h ss c)) := by
  have hread : readElement (s.withStatus h ss c) b k.toNat = readElement s b k.toNat := readElement_congr rfl rfl ..
  refine sameEffect_hostOnly (sameEffect_ite ?_ (sameEffect_complete ..))
  rw [hread]
  exact sameEffect_complete ..

theorem writeElement_withStatus (k : Nat) (v : Element) :
    writeElement (s.withStatus h ss c) k v = (writeElement s k v).withStatus h ss c := by cases v <;> rfl

theorem sameEffect_execStoreSet (k : Half) (v : Element) :
    SameEffect (execStoreSet k v s) (execStoreSet k v (s.withStatus h ss c)) := by
  refine sameEffect_hostOnly (sameEffect_ite ?_ (sameEffect_complete ..))
  rw [writeElement_withStatus]
  exact sameEffect_complete ..

/-- No instruction reads a STATUS or the last completion. -/
theorem sameEffect_exec (i : Instr) : SameEffect (exec i s) (exec i (s.withStatus h ss c)) := by
  cases i with
  | crcInit => exact sameEffect_hostOnly (sameEffect_complete { s with crc := 0xFFFF } ..)
  | crcUpdate d => exact sameEffect_hostOnly (sameEffect_complete { s with crc := crcStep s.crc d } ..)
  | crcRead | crcCompute | crcAppend | packCoils | packRegs =>
    exact sameEffect_hostOnly (sameEffect_complete ..)
  | crcCheck | rtuEnc | rtuEncwc | rtuEncwr | rtuDec | unpackCoils | unpackRegs | mbapDec | mbapEnc | mbapErr =>
    exact sameEffect_hostOnly (sameEffect_settle ..)
  | storeGet b k => exact sameEffect_execStoreGet ..
  | storeSet k v => exact sameEffect_execStoreSet ..
  | srvTx q => exact sameEffect_execSrvTx ..
  | readCoils m a n r => exact sameEffect_exec_fn s h ss c .readCoils m a n r
  | readDiscreteInputs m a n r => exact sameEffect_exec_fn s h ss c .readDiscreteInputs m a n r
  | readHoldingRegisters m a n r => exact sameEffect_exec_fn s h ss c .readHoldingRegisters m a n r
  | readInputRegisters m a n r => exact sameEffect_exec_fn s h ss c .readInputRegisters m a n r
  | writeSingleCoil m a n r => exact sameEffect_exec_fn s h ss c .writeSingleCoil m a n r
  | writeSingleRegister m a n r => exact sameEffect_exec_fn s h ss c .writeSingleRegister m a n r
  | writeMultipleCoils m a n r => exact sameEffect_exec_fn s h ss c .writeMultipleCoils m a n r
  | writeMultipleRegisters m a n r => exact sameEffect_exec_fn s h ss c .writeMultipleRegisters m a n r

end

/-- Settles O54: `withStatus` gives every state that differs in STATUS and the last completion alone. -/
theorem statusIsNeverAnInput : Obligations.StatusIsNeverAnInput :=
  fun i s h ss c => sameEffect_exec s h ss c i

/-! ### Inputs are taken one by one -/

/-- An operation of an agent that exists completes for it, whether or not its selector is defined. -/
theorem step_op {s : State} {a : Agent} {c : Command} {rest : List Input} (hp : s.pending = .op a c :: rest)
    (ha : hasAgent s.cfg a = true) : ∃ t e r, step s = .next t ∧ Completes (accept s a rest) t e r := by
  simp only [step, hp, ha, if_true]
  cases decode c with
  | ok i =>
    obtain ⟨t, e, r, ho, hc, -⟩ := exec_completes i (accept s a rest)
    exact ⟨t, e, r, ho, hc⟩
  | error j => exact ⟨_, _, _, rfl, (onlyCompletes_complete ..).toCompletes⟩

/-- A step takes exactly the first input, keeps the configuration, and completes an operation for its agent. -/
theorem step_issuable {s : State} {x : Input} {rest : List Input} (hp : s.pending = x :: rest)
    (hx : issuable s.cfg x = true) :
    ∃ t, step s = .next t ∧ t.cfg = s.cfg ∧ t.pending = rest ∧
      ∀ a c, x = .op a c → ∃ e r, t.completion = some ⟨a, e, r⟩ := by
  cases x with
  | reset => exact ⟨{ State.resetWith s.cfg with pending := rest }, by rw [step, hp]; rfl, rfl, rfl, by simp⟩
  | op a c =>
    obtain ⟨t, e, r, ht, hc⟩ := step_op hp hx
    refine ⟨t, ht, hc.cfg, hc.pending, fun a' c' heq => ⟨e, r, ?_⟩⟩
    cases heq
    exact hc.completion

/-- Settles O55, by induction on the list of inputs: the first step takes the first input and leaves an issuable
list. -/
theorem everyIssuedOperationCompletesInOrder : Obligations.EveryIssuedOperationCompletesInOrder := by
  intro s hall k x hk
  induction hs : s.pending generalizing s k with
  | nil => simp [hs] at hk
  | cons y rest ih =>
    obtain ⟨t, ht, hcfg, hrest, hdone⟩ := step_issuable hs (hall y (by simp [hs]))
    cases k with
    | zero =>
      obtain rfl : y = x := by simpa [hs] using hk
      exact ⟨t, run_succ ht, hrest, hdone⟩
    | succ k =>
      have hall' : ∀ z ∈ t.pending, issuable t.cfg z = true := fun z hz => by
        rw [hcfg]
        exact hall z (by simp [hs, ← hrest, hz])
      obtain ⟨u, hu, hdrop, hlast⟩ := ih t hall' k (by simpa [hs, hrest] using hk) hrest
      exact ⟨u, (run_succ ht).trans hu, hdrop, hlast⟩

end Sys2Proof.Machine
end

section
/-! PROOFS. Selectors that are undefined or belong to another agent (30_encoding.md R101). -/

namespace Sys2Proof.Machine

/-- Only a selector that R100 lists decodes. -/
theorem op_mem_of_decode {c : Command} {i : Instr} (h : decode c = .ok i) :
    c.op ∈ allSelectors.map Selector.byte := by
  unfold decode at h
  split at h
  · next o ho => exact byte_of_selectorOf ho ▸ List.mem_map_of_mem (List.mem_of_find?_eq_some ho)
  · cases h

section
variable {s : State} {a : Agent} {c : Command} {rest : List Input}

/-- A step runs the instruction its operation decodes to. -/
theorem step_of_decode_ok {i : Instr} (hp : s.pending = .op a c :: rest) (ha : hasAgent s.cfg a = true)
    (hd : decode c = .ok i) : step s = exec i (accept s a rest) := by simp [step, hp, ha, hd]

/-- A step answers a command that does not decode with ProtocolError. -/
theorem step_of_decode_error {j : Reject} (hp : s.pending = .op a c :: rest) (ha : hasAgent s.cfg a = true)
    (hd : decode c = .error j) : step s = .next (complete (accept s a rest) (some .protocolError) .nothing) := by
  simp [step, hp, ha, hd, undefinedOperation, raise_eq]

/-- An instruction decoded from a selector of another agent completes with ProtocolError alone. -/
theorem exec_of_foreign_selector {i : Instr} (hd : decode c = .ok i)
    (h : (s.issuer = .host ∧ c.op = 0x40) ∨ (s.issuer ≠ .host ∧ c.op ≠ 0x40)) :
    exec i s = .next (complete s (some .protocolError) .nothing) := by
  have hsel := isServerInstr_of_decode hd
  refine exec_foreign i s ?_
  rcases h with ⟨hs, hop⟩ | ⟨hs, hop⟩
  · exact .inl ⟨hsel.trans (decide_eq_true hop), hs⟩
  · refine .inr ⟨hsel.trans (decide_eq_false hop), ?_⟩
    cases hi : s.issuer with
    | host => exact absurd hi hs
    | srv p => exact ⟨p, rfl⟩

end

/-- Settles O2: a command that does not decode is answered by `step` itself, one that decodes has a listed selector and
so is another agent's. -/
theorem undefinedOrForeignSelectorIsProtocolError : Obligations.UndefinedOrForeignSelectorIsProtocolError := by
  intro s a c rest hp ha h
  refine ⟨complete (accept s a rest) (some .protocolError) .nothing, ?_, onlyCompletes_complete ..⟩
  cases hd : decode c with
  | error j => exact step_of_decode_error hp ha hd
  | ok i =>
    rw [step_of_decode_ok hp ha hd]
    exact exec_of_foreign_selector hd (h.resolve_left (not_not_intro (op_mem_of_decode hd)))

end Sys2Proof.Machine
end

section
/-! PROOFS. The CRC unit (40_crc.md): its algorithm, the algebra behind its checks, and its six operations. -/

namespace Sys2Proof.Machine

/-! ### The algorithm (40_crc.md R120) -/

/-- One more bit iteration, taken last. -/
theorem crcShifts_succ_last (n : Nat) (c : Half) : crcShifts (n + 1) c = crcShift (crcShifts n c) :=
  crcShifts_add n 1 c

theorem crc16_append (x y : List Byte) : crc16 (x ++ y) = y.foldl crcStep (crc16 x) := List.foldl_append

/-- Settles O8: the sequence is `crcShifts k` of the running value XOR the byte. -/
theorem crcAlgorithm : Obligations.CrcAlgorithm :=
  ⟨fun c d => ⟨fun k => crcShifts k (c ^^^ d.setWidth 16), rfl, fun k => crcShifts_succ_last k _, rfl⟩, rfl,
    fun x d => crc16_append x [d], fun _ => rfl⟩

/-! ### The bit iterations and the step lose nothing -/

theorem crcShifts_injective (n : Nat) : Function.Injective (crcShifts n) := by
  intro a b h
  have hz : crcShifts n (a ^^^ b) = 0 := by rw [crcShifts_xor, h, BitVec.xor_self]; rfl
  exact BitVec.xor_eq_zero_iff.mp (crcShifts_eq_zero n hz)

/-- The step is injective in the running value. -/
theorem crcStep_injective_left (d : Byte) : Function.Injective (crcStep · d) := by
  intro a b h
  have hx : a ^^^ d.setWidth 16 = b ^^^ d.setWidth 16 := crcShifts_injective 8 h
  exact (BitVec.xor_left_inj _).mp hx

/-- The step is injective in the byte. -/
theorem crcStep_injective_right (c : Half) : Function.Injective (crcStep c) := by
  intro d e h
  have hx : c ^^^ d.setWidth 16 = c ^^^ e.setWidth 16 := crcShifts_injective 8 h
  simpa using congrArg (BitVec.setWidth 8) ((BitVec.xor_right_inj _).mp hx)

theorem foldl_crcStep_injective (x : List Byte) : Function.Injective (x.foldl crcStep) := by
  induction x with
  | nil => exact fun _ _ h => h
  | cons d x ih => exact ih.comp (crcStep_injective_left d)

/-- Changing one byte of a sequence changes its CRC. -/
theorem crc16_set_ne {x : List Byte} {k : Nat} {d : Byte} (hk : k < x.length) (hd : d ≠ byteAt x k) :
    crc16 (x.set k d) ≠ crc16 x := by
  have hx : x = x.take k ++ byteAt x k :: x.drop (k + 1) := by
    rw [byteAt, List.getD_eq_getElem _ _ hk, ← List.drop_eq_getElem_cons hk, List.take_append_drop]
  intro h
  rw [List.set_eq_take_append_cons_drop, if_pos hk] at h
  conv at h => rhs; rw [hx]
  rw [crc16_append, crc16_append] at h
  exact hd (crcStep_injective_right _ (foldl_crcStep_injective _ h))

/-! ### The residue (40_crc.md R129) -/

/-- n bit iterations only shift while the n low bits are clear. -/
theorem crcShifts_of_low_clear (n : Nat) : ∀ {c : Half}, (∀ i < n, c.getLsbD i = false) →
    crcShifts n c = c >>> n := by
  induction n with
  | zero => intro c _; rfl
  | succ n ih =>
    intro c h
    have hshift : crcShift c = c >>> 1 := by rw [crcShift, h 0 (by omega)]; rfl
    have hclear : ∀ i < n, (c >>> 1).getLsbD i = false := fun i hi => by
      rw [BitVec.getLsbD_ushiftRight]
      exact h (1 + i) (by omega)
    rw [crcShifts, hshift, ih hclear, ← BitVec.shiftRight_add, Nat.add_comm]

/-- Feeding the running value its own low byte leaves its high byte. -/
theorem crcStep_lo8 (c : Half) : crcStep c (lo8 c) = (hi8 c).setWidth 16 := by
  have hclear : ∀ i < 8, (c ^^^ (lo8 c).setWidth 16).getLsbD i = false := fun i hi => by
    simp [lo8, hi, show i < 16 by omega]
  rw [crcStep, crcShifts_of_low_clear 8 hclear]
  refine BitVec.eq_of_getLsbD_eq fun i hi => ?_
  have htop : c.getLsbD (8 + i) = true → i < 8 := fun h => by
    have := BitVec.lt_of_getLsbD h
    omega
  simpa [hi8, lo8, hi] using htop

/-- Feeding a running value that is one byte this byte clears it. -/
theorem crcStep_setWidth_self (d : Byte) : crcStep (d.setWidth 16) d = 0 := by
  rw [crcStep, BitVec.xor_self, crcShifts_of_low_clear 8 (by simp)]
  rfl

/-- Settles O16: the low byte shifts the high byte down, and the high byte cancels it. -/
theorem crcResidueIsZero : Obligations.CrcResidueIsZero := by
  intro x
  calc crc16 (x ++ [lo8 (crc16 x), hi8 (crc16 x)])
      = crcStep (crcStep (crc16 x) (lo8 (crc16 x))) (hi8 (crc16 x)) := crc16_append ..
    _ = 0 := by rw [crcStep_lo8, crcStep_setWidth_self]

/-! ### Flipped bits (40_crc.md R130) -/

theorem xor_twoPow_ne (d : Byte) (j : Fin 8) : d ^^^ BitVec.twoPow 8 j.val ≠ d := by
  intro h
  simpa using congrArg (·.getLsbD j.val) h

theorem flipBit_append_left {f : List Byte} {k : Nat} (hk : k < f.length) (g : List Byte) (j : Fin 8) :
    flipBit (f ++ g) k j = flipBit f k j ++ g := by
  rw [flipBit, byteAt_append_left hk, List.set_append_left _ _ hk, flipBit]

theorem flipBit_append_right (f g : List Byte) (k : Nat) (j : Fin 8) :
    flipBit (f ++ g) (f.length + k) j = f ++ flipBit g k j := by
  rw [flipBit, byteAt_append_right, List.set_append_right _ _ (by omega), Nat.add_sub_cancel_left, flipBit]

/-- A body with another low or high CRC byte than its own fails the comparison. -/
theorem crcMatches_wrong_crc {x : List Byte} {l h : Byte} (hne : l ≠ lo8 (crc16 x) ∨ h ≠ hi8 (crc16 x)) :
    crcMatches (x ++ [l, h]) = false := by
  rw [crcMatches_append, beq_eq_false_iff_ne]
  intro hcrc
  rcases hne with hl | hh
  · exact hl (by rw [hcrc, lo8_be16])
  · exact hh (by rw [hcrc, hi8_be16])

/-- No single flipped bit of a sequence with its CRC passes the comparison. -/
theorem crcMatches_flipBit_crcAppend {x : List Byte} {k : Nat} (hk : k < x.length + 2) (j : Fin 8) :
    crcMatches (flipBit (crcAppend x) k j) = false := by
  unfold crcAppend
  by_cases hbody : k < x.length
  · rw [flipBit_append_left hbody, crcMatches_append, be16_hi8_lo8, beq_eq_false_iff_ne]
    exact crc16_set_ne hbody (xor_twoPow_ne _ j)
  · obtain ⟨m, rfl⟩ := Nat.exists_eq_add_of_le (Nat.le_of_not_lt hbody)
    rw [flipBit_append_right]
    have hm : m = 0 ∨ m = 1 := by omega
    rcases hm with rfl | rfl
    · exact crcMatches_wrong_crc (.inl (xor_twoPow_ne _ j))
    · exact crcMatches_wrong_crc (.inr (xor_twoPow_ne _ j))

@[simp] theorem flipBit_length (f : List Byte) (k : Nat) (j : Fin 8) : (flipBit f k j).length = f.length :=
  List.length_set

@[simp] theorem crcAppend_length (x : List Byte) : (crcAppend x).length = x.length + 2 := by simp [crcAppend]

/-! ### `crcCheck`, case by case (40_crc.md R126) -/

theorem crcCheck_short {f : List Byte} (h : f.length < 2) : crcCheck f = .error .formatError := if_pos h

theorem crcCheck_mismatch {f : List Byte} (hl : 2 ≤ f.length) (h : crcMatches f = false) :
    crcCheck f = .error .crcError := by
  rw [crcCheck, if_neg (by omega), h]
  rfl

theorem crcCheck_crcAppend (x : List Byte) : crcCheck (crcAppend x) = .ok x := by
  rw [crcAppend, crcCheck_append, if_pos (be16_hi8_lo8 _).symm]

/-! ### The six operations on H -/

section
variable {s : State} (hs : s.issuer = .host)
include hs

theorem exec_crcInit : exec .crcInit s = .next (complete { s with crc := 0xFFFF } none .nothing) :=
  hostOnly_host hs _

theorem exec_crcUpdate (d : Byte) :
    exec (.crcUpdate d) s = .next (complete { s with crc := crcStep s.crc d } none .nothing) :=
  hostOnly_host hs _

theorem exec_crcRead : exec .crcRead s = .next (complete s none (.half s.crc)) := hostOnly_host hs _

theorem exec_crcCompute (x : List Byte) : exec (.crcCompute x) s = .next (complete s none (.half (crc16 x))) :=
  hostOnly_host hs _

theorem exec_crcAppend (x : List Byte) : exec (.crcAppend x) s = .next (complete s none (.bytes (crcAppend x))) :=
  hostOnly_host hs _

theorem exec_crcCheck_ok {f x : List Byte} (h : crcCheck f = .ok x) :
    exec (.crcCheck f) s = .next (complete s none (.bytes x)) :=
  hostOnly_settle_ok hs (congrArg (Except.map Result.bytes) h)

theorem exec_crcCheck_error {f : List Byte} {k : ErrKind} (h : crcCheck f = .error k) :
    exec (.crcCheck f) s = .next (complete s (some k) .nothing) :=
  hostOnly_settle_error hs (congrArg (Except.map Result.bytes) h)

end

/-- STATUS[H] after an operation of H. -/
theorem complete_statusH {s : State} (hs : s.issuer = .host) (e : Option ErrKind) (r : Result) :
    (complete s e r).statusH = statusCode e := by simp [complete, State.setStatus, hs]

/-- Completing after CRC alone was written keeps the frame. -/
theorem completes_crc_write (s : State) (v : Half) (r : Result) :
    Completes s (complete { s with crc := v } none r) none r :=
  completes_complete (s := s) (s' := { s with crc := v }) (statusOf_congr _ _ rfl rfl) rfl rfl rfl none r

/-- Completing after CRC alone was written keeps the store. -/
theorem storeKept_crc_write (s : State) (v : Half) (r : Result) :
    StoreKept s (complete { s with crc := v } none r) :=
  fun b i => (readElement_complete ..).trans (readElement_congr rfl rfl b i)

/-- Settles O9: CRC.INIT completes over the state with CRC written. -/
theorem crcInitSetsInitialValue : Obligations.CrcInitSetsInitialValue :=
  ⟨fun _ h => decode_of_selector (o := .crcInit) h, fun s hs =>
    ⟨_, exec_crcInit hs, complete_crc .., completes_crc_write s .., storeKept_crc_write s _ _⟩⟩

/-- Settles O10: CRC.UPDATE completes over the state with CRC written. -/
theorem crcUpdateAdvancesAccumulator : Obligations.CrcUpdateAdvancesAccumulator :=
  ⟨fun _ h => decode_of_selector (o := .crcUpdate) h, fun d s hs =>
    ⟨_, exec_crcUpdate hs d, complete_crc .., completes_crc_write s .., storeKept_crc_write s _ _⟩⟩

/-- Settles O11: CRC.READ completes on the state itself. -/
theorem crcReadReturnsAccumulator : Obligations.CrcReadReturnsAccumulator :=
  ⟨fun _ h => decode_of_selector (o := .crcRead) h, fun _ hs => ⟨_, exec_crcRead hs, onlyCompletes_complete ..⟩⟩

/-- Settles O12: both complete on the state itself. -/
theorem crcComputeAndAppend : Obligations.CrcComputeAndAppend :=
  ⟨fun _ h => decode_of_selector (o := .crcCompute) h, fun _ h => decode_of_selector (o := .crcAppend) h,
    fun x _ hs => ⟨⟨_, exec_crcCompute hs x, onlyCompletes_complete ..⟩,
      ⟨_, exec_crcAppend hs x, onlyCompletes_complete ..⟩⟩⟩

/-- Settles O13: a frame is too short, or `crcCheck_append` compares its last two bytes with the body's CRC. -/
theorem crcCheckComparesLastTwoBytes : Obligations.CrcCheckComparesLastTwoBytes := by
  refine ⟨fun _ h => decode_of_selector (o := .crcCheck) h, fun s hs => ⟨fun f hf => ?_, fun body l h hc => ?_,
    fun body l h hc => ?_⟩⟩
  · exact ⟨_, exec_crcCheck_error hs (crcCheck_short hf), onlyCompletes_complete ..⟩
  · exact ⟨_, exec_crcCheck_ok hs ((crcCheck_append ..).trans (if_pos hc)), onlyCompletes_complete ..⟩
  · exact ⟨_, exec_crcCheck_error hs ((crcCheck_append ..).trans (if_neg hc)), onlyCompletes_complete ..⟩

/-- Settles O15: the state after CRC.APPEND still has H as issuer, and CRC.CHECK undoes CRC.APPEND there. -/
theorem crcCheckAcceptsAppended : Obligations.CrcCheckAcceptsAppended := by
  intro x s hs
  have ht : (complete s none (.bytes (crcAppend x))).issuer = .host := (complete_issuer ..).trans hs
  refine ⟨_, crcAppend x, _, exec_crcAppend hs x, ?_, exec_crcCheck_ok ht (crcCheck_crcAppend x), ?_, ?_⟩
  · rw [complete_completion, hs]
  · rw [complete_completion, ht]
  · exact complete_statusH ht none _

/-- Settles O17: the flipped frame is long enough and fails the comparison. -/
theorem singleBitFlipIsCrcError : Obligations.SingleBitFlipIsCrcError := by
  intro x k j s hs hk
  have hlen : 2 ≤ (flipBit (crcAppend x) k j).length := by simp
  exact ⟨_, exec_crcCheck_error hs (crcCheck_mismatch hlen (crcMatches_flipBit_crcAppend hk j)),
    onlyCompletes_complete ..⟩

/-! ### CRC along a run (40_crc.md R127) -/

/-- What an operation of H makes of CRC (10_state.md R22). -/
def crcAfter (c : Half) : Instr → Half
  | .crcInit => 0xFFFF
  | .crcUpdate d => crcStep c d
  | _ => c

theorem crcWrites_cons (x : Input) (l : List Input) : crcWrites (x :: l) = crcWrites [x] ++ crcWrites l :=
  List.filterMap_append (l := [x])

/-- An instruction that is no write of CRC by H leaves CRC alone. -/
theorem exec_keeps_crc {i : Instr} {s t : State} (ht : exec i s = .next t)
    (h : ¬ (s.issuer = .host ∧ (i = .crcInit ∨ ∃ d, i = .crcUpdate d))) : t.crc = s.crc :=
  not_imp_comm.mp (writeRightsFollowThePort i s t ht).1 h

/-- An operation changes CRC as `crcWrites` lists it. -/
theorem exec_crc {a : Agent} {c : Command} {i : Instr} {s t : State} (hs : s.issuer = a) (hd : decode c = .ok i)
    (ht : exec i s = .next t) : t.crc = (crcWrites [.op a c]).foldl crcAfter s.crc := by
  cases a with
  | srv p => exact exec_keeps_crc ht (by simp [hs])
  | host =>
    cases i with
    | crcInit =>
      cases (exec_crcInit hs).symm.trans ht
      simp [crcWrites, hd, crcAfter]
    | crcUpdate d =>
      cases (exec_crcUpdate hs d).symm.trans ht
      simp [crcWrites, hd, crcAfter]
    | _ => simpa [crcWrites, hd] using exec_keeps_crc ht (by simp)

/-- A step that takes an operation changes CRC as `crcWrites` lists it. -/
theorem step_crc {s t : State} {a : Agent} {c : Command} {rest : List Input} (hp : s.pending = .op a c :: rest)
    (ha : hasAgent s.cfg a = true) (ht : step s = .next t) :
    t.crc = (crcWrites [.op a c]).foldl crcAfter s.crc := by
  cases hd : decode c with
  | ok i => exact exec_crc (s := accept s a rest) rfl hd ((step_of_decode_ok hp ha hd).symm.trans ht)
  | error j =>
    have hnone : crcWrites [.op a c] = [] := by cases a <;> simp [crcWrites, hd]
    cases (step_of_decode_error hp ha hd).symm.trans ht
    rw [hnone, complete_crc]
    rfl

/-- A run through operations takes them all and changes CRC by their writes in order. -/
theorem run_crc {l rest : List Input} {s : State} (hp : s.pending = l ++ rest)
    (hall : ∀ x ∈ l, x ≠ .reset ∧ issuable s.cfg x = true) :
    ∃ t : State, Host.Core.run Sys2Proof.core l.length s = .next t ∧ t.pending = rest ∧
      t.crc = (crcWrites l).foldl crcAfter s.crc := by
  induction l generalizing s with
  | nil => exact ⟨s, rfl, hp, rfl⟩
  | cons x l ih =>
    obtain ⟨hx, hissuable⟩ := hall x List.mem_cons_self
    obtain ⟨t, ht, hcfg, hrest, -⟩ := step_issuable hp hissuable
    have hcrc : t.crc = (crcWrites [x]).foldl crcAfter s.crc := by
      cases x with
      | reset => exact absurd rfl hx
      | op a c => exact step_crc hp hissuable ht
    obtain ⟨u, hu, hupend, hucrc⟩ := ih hrest fun y hy => hcfg ▸ hall y (List.mem_cons_of_mem x hy)
    refine ⟨u, (run_succ ht).trans hu, hupend, ?_⟩
    rw [hucrc, hcrc, ← List.foldl_append, ← crcWrites_cons]

/-- One CRC.INIT and one CRC.UPDATE for each byte leave the sequence's CRC, whatever stood in the register. -/
theorem foldl_crcAfter_init_updates (c : Half) (ds : List Byte) :
    (Instr.crcInit :: ds.map .crcUpdate).foldl crcAfter c = crc16 ds := by
  rw [List.foldl_cons, List.foldl_map]
  rfl

/-- Settles O14: after the operations before it CRC holds crc16(ds), and CRC.READ returns it. -/
theorem incrementalCrcUnderInterleaving : Obligations.IncrementalCrcUnderInterleaving := by
  intro s before c after ds hp hd hall hw
  obtain ⟨t, ht, hpend, hcrc⟩ := run_crc hp hall
  rw [hw, foldl_crcAfter_init_updates] at hcrc
  have hstep : step t = .next (complete (accept t .host after) none (.half t.crc)) :=
    (step_of_decode_ok hpend rfl hd).trans (exec_crcRead rfl)
  refine ⟨_, (run_add ht).trans ((run_succ hstep).trans rfl), ?_, ?_, ?_⟩
  · rw [complete_crc, accept_crc, hcrc]
  · rw [complete_completion, hcrc]
    rfl
  · rw [complete_pending, accept_pending]

end Sys2Proof.Machine
end

section
/-! PROOFS. The RTU codec and the payload packing (41_rtu_codec.md): what each codec function answers, case by case,
and from that the operations on H. -/

namespace Sys2Proof.Machine

/-! ### RTU.ENC, RTU.ENCWC and RTU.ENCWR: the frame builders (41_rtu_codec.md R141, R142, R143) -/

/-- The single-frame function codes are 1 to 6. -/
theorem singleFrameFc_iff (fc : Byte) :
    fc ∈ ([0x01, 0x02, 0x03, 0x04, 0x05, 0x06] : List Byte) ↔ 1 ≤ fc.toNat ∧ fc.toNat ≤ 6 := by
  revert fc; decide

theorem rtuEncode_ok {fc : Byte} (h : 1 ≤ fc.toNat ∧ fc.toNat ≤ 6) (unit : Byte) (addr qv : Half) :
    rtuEncode unit fc addr qv = .ok (crcAppend [unit, fc, hi8 addr, lo8 addr, hi8 qv, lo8 qv]) :=
  if_pos ((singleFrameFc_iff fc).mpr h)

theorem rtuEncode_error {fc : Byte} (h : ¬ (1 ≤ fc.toNat ∧ fc.toNat ≤ 6)) (unit : Byte) (addr qv : Half) :
    rtuEncode unit fc addr qv = .error .protocolError :=
  if_neg (mt (singleFrameFc_iff fc).mp h)

theorem rtuEncodeMultiple_ok {p : List Byte} (h : p.length ≤ 255) (unit fc : Byte) (addr : Half) (q : Nat) :
    rtuEncodeMultiple unit fc addr q p = .ok (crcAppend ([unit, fc, hi8 addr, lo8 addr,
      hi8 (BitVec.ofNat 16 q), lo8 (BitVec.ofNat 16 q), BitVec.ofNat 8 p.length] ++ p)) :=
  if_neg (Nat.not_lt.mpr h)

theorem rtuEncodeMultiple_error {p : List Byte} (h : 255 < p.length) (unit fc : Byte) (addr : Half) (q : Nat) :
    rtuEncodeMultiple unit fc addr q p = .error .formatError :=
  if_pos h

/-! ### RTU.DEC: its checks in order (41_rtu_codec.md R150) -/

theorem crcMatches_eq_true_iff (f : List Byte) : crcMatches f = true ↔
    crc16 (f.take (f.length - 2)) = be16 (byteAt f (f.length - 1)) (byteAt f (f.length - 2)) :=
  beq_iff_eq

theorem rtuDecode_short {f : List Byte} (h : f.length < 5) : rtuDecode f = .error .formatError := if_pos h

theorem rtuDecode_mismatch {f : List Byte} (hl : 5 ≤ f.length) (hc : crcMatches f = false) :
    rtuDecode f = .error .crcError := by
  rw [rtuDecode, if_neg (by omega), hc]
  rfl

theorem rtuDecode_truncated {f : List Byte} (hl : 5 ≤ f.length) (hc : crcMatches f = true)
    (hn : f.length < 5 + (byteAt f 2).toNat) : rtuDecode f = .error .formatError := by
  rw [rtuDecode, if_neg (by omega), if_pos hc]
  exact if_pos hn

theorem rtuDecode_ok {f : List Byte} (hn : 5 + (byteAt f 2).toNat ≤ f.length) (hc : crcMatches f = true) :
    rtuDecode f = .ok ((f.drop 3).take (byteAt f 2).toNat) := by
  rw [rtuDecode, if_neg (by omega), if_pos hc, ← slice_eq_take_drop]
  exact if_neg (Nat.not_lt.mpr hn)

/-! ### RTU.DEC of a body with its CRC (41_rtu_codec.md R152, R153) -/

theorem crcMatches_crcAppend (x : List Byte) : crcMatches (crcAppend x) = true := by
  rw [crcAppend, crcMatches_append, be16_hi8_lo8, beq_self_eq_true]

/-- A response frame is its payload and five bytes (30_encoding.md R84). -/
theorem responseFrame_length (unit fc n : Byte) (p : List Byte) :
    (crcAppend ([unit, fc, n] ++ p)).length = 5 + p.length := by
  rw [crcAppend_length, List.length_append]
  exact Nat.add_right_comm 3 p.length 2

/-- A body that holds as many bytes as its byte count says gives them back. -/
theorem rtuDecode_crcAppend_ok {unit fc n : Byte} {p : List Byte} (h : n.toNat ≤ p.length) :
    rtuDecode (crcAppend ([unit, fc, n] ++ p)) = .ok (p.take n.toNat) := by
  have hdrop : ((crcAppend ([unit, fc, n] ++ p)).drop 3).take n.toNat = p.take n.toNat :=
    List.take_append_of_le_length h
  have hl : 5 + n.toNat ≤ (crcAppend ([unit, fc, n] ++ p)).length := by
    rw [responseFrame_length]
    omega
  calc rtuDecode (crcAppend ([unit, fc, n] ++ p))
      = .ok (((crcAppend ([unit, fc, n] ++ p)).drop 3).take n.toNat) := rtuDecode_ok hl (crcMatches_crcAppend _)
    _ = .ok (p.take n.toNat) := congrArg Except.ok hdrop

/-- A body that holds fewer bytes than its byte count says is a format error. -/
theorem rtuDecode_crcAppend_error {unit fc n : Byte} {p : List Byte} (h : p.length < n.toNat) :
    rtuDecode (crcAppend ([unit, fc, n] ++ p)) = .error .formatError := by
  have hl : (crcAppend ([unit, fc, n] ++ p)).length < 5 + n.toNat := by
    rw [responseFrame_length]
    omega
  exact rtuDecode_truncated (by simp) (crcMatches_crcAppend _) hl

/-- A body with its CRC and one bit flipped is a CRC error. -/
theorem rtuDecode_flipBit {x : List Byte} {k : Nat} (hx : 3 ≤ x.length) (hk : k < x.length + 2) (j : Fin 8) :
    rtuDecode (flipBit (crcAppend x) k j) = .error .crcError :=
  rtuDecode_mismatch (by simpa using hx) (crcMatches_flipBit_crcAppend hk j)

/-! ### Packing, and unpacking alone and after it (41_rtu_codec.md R160, R161, R163, R164) -/

/-- Every bit of the packed form, padding included, is the list's element or false. -/
theorem packedBit_packCoils_of_lt_length (x : List Bool) (k : Nat) (hk : k < 8 * (packCoils x).length) :
    packedBit (packCoils x) k = x.getD k false :=
  packedBit_packCoils x k (packCoils_length x ▸ hk)

theorem unpackCoils_ok {p : List Byte} {n : Nat} (h : n ≤ 8 * p.length) :
    unpackCoils p n = .ok ((List.range n).map (packedBit p)) :=
  if_neg (Nat.not_lt.mpr h)

theorem unpackCoils_error {p : List Byte} {n : Nat} (h : 8 * p.length < n) :
    unpackCoils p n = .error .formatError :=
  if_pos h

theorem unpackRegs_ok {p : List Byte} (h : p.length % 2 = 0) : unpackRegs p = .ok (regsOf p) :=
  if_neg (by omega)

theorem unpackRegs_error {p : List Byte} (h : p.length % 2 = 1) : unpackRegs p = .error .formatError := if_pos h

/-- The packed bits, read in order, are the list. -/
theorem unpackCoils_packCoils (x : List Bool) : unpackCoils (packCoils x) x.length = .ok x := by
  rw [unpackCoils_ok (by rw [packCoils_length]; omega)]
  refine congrArg Except.ok (List.ext_getElem (by simp) fun k _ hk => ?_)
  have hbit := packedBit_packCoils x k (by omega)
  simp [hbit, hk]

theorem regsOf_packRegs (x : List Half) : regsOf (packRegs x) = x := by
  induction x with
  | nil => rfl
  | cons v x ih => rw [packRegs, regsOf, ih, be16_hi8_lo8]

theorem unpackRegs_packRegs (x : List Half) : unpackRegs (packRegs x) = .ok x := by
  rw [unpackRegs_ok (by rw [packRegs_length]; omega), regsOf_packRegs]

/-! ### The operations on H -/

section
variable {s : State} (hs : s.issuer = .host)
include hs

/-- An operation of H that is one codec function returns what the function answers. -/
theorem hostOnly_settle_map_ok {α : Type} {x : Except ErrKind α} {v : α} (h : x = .ok v) (g : α → Result) :
    hostOnly s (settle (x.map g) s) = .next (complete s none (g v)) :=
  hostOnly_settle_ok hs (congrArg (Except.map g) h)

/-- An operation of H that is one codec function raises what the function answers. -/
theorem hostOnly_settle_map_error {α : Type} {x : Except ErrKind α} {k : ErrKind} (h : x = .error k)
    (g : α → Result) : hostOnly s (settle (x.map g) s) = .next (complete s (some k) .nothing) :=
  hostOnly_settle_error hs (congrArg (Except.map g) h)

theorem complete_completion_host (e : Option ErrKind) (r : Result) :
    (complete s e r).completion = some ⟨.host, e, r⟩ := by rw [complete_completion, hs]

theorem exec_rtuDec_ok {f p : List Byte} (h : rtuDecode f = .ok p) :
    exec (.rtuDec f) s = .next (complete s none (.bytes p)) :=
  hostOnly_settle_map_ok hs h .bytes

theorem exec_rtuDec_error {f : List Byte} {k : ErrKind} (h : rtuDecode f = .error k) :
    exec (.rtuDec f) s = .next (complete s (some k) .nothing) :=
  hostOnly_settle_map_error hs h .bytes

theorem exec_packCoils (x : List Bool) : exec (.packCoils x) s = .next (complete s none (.bytes (packCoils x))) :=
  hostOnly_host hs _

theorem exec_unpackCoils_ok {p : List Byte} {n : Half} {x : List Bool} (h : unpackCoils p n.toNat = .ok x) :
    exec (.unpackCoils p n) s = .next (complete s none (.bits x)) :=
  hostOnly_settle_map_ok hs h .bits

theorem exec_packRegs (x : List Half) : exec (.packRegs x) s = .next (complete s none (.bytes (packRegs x))) :=
  hostOnly_host hs _

theorem exec_unpackRegs_ok {p : List Byte} {x : List Half} (h : unpackRegs p = .ok x) :
    exec (.unpackRegs p) s = .next (complete s none (.regs x)) :=
  hostOnly_settle_map_ok hs h .regs

end

/-- Settles O18: `rtuEncode` appends the CRC to the six header bytes for function codes 1 to 6 alone. -/
theorem rtuEncBuildsEightByteFrame : Obligations.RtuEncBuildsEightByteFrame := by
  refine ⟨fun _ h => decode_of_selector (o := .rtuEnc) h, fun unit fc addr qv s hs => ⟨fun h => ?_, fun h => ?_⟩⟩
  · exact ⟨_, _, hostOnly_settle_map_ok hs (rtuEncode_ok h unit addr qv) .bytes, onlyCompletes_complete .., rfl, rfl,
      rfl⟩
  · exact ⟨_, hostOnly_settle_map_error hs (rtuEncode_error h unit addr qv) .bytes, onlyCompletes_complete ..⟩

/-- Settles O19: 2040 coils fill the 255 bytes that the byte count can name. -/
theorem rtuEncwcBuildsWriteCoilsFrame : Obligations.RtuEncwcBuildsWriteCoilsFrame := by
  refine ⟨fun _ h => decode_of_selector (o := .rtuEncwc) h, fun unit addr x s hs => ⟨fun h => ?_, fun h => ?_⟩⟩
  · have hp : (packCoils x).length ≤ 255 := by rw [packCoils_length]; omega
    exact ⟨_, packCoils x, hostOnly_settle_map_ok hs (rtuEncodeMultiple_ok hp ..) .bytes, packCoils_length x,
      packedBit_packCoils_of_lt_length x, onlyCompletes_complete ..⟩
  · have hp : 255 < (packCoils x).length := by rw [packCoils_length]; omega
    exact ⟨_, hostOnly_settle_map_error hs (rtuEncodeMultiple_error hp ..) .bytes, onlyCompletes_complete ..⟩

/-- Settles O20: 127 registers take 254 bytes, one more takes 256, which the byte count cannot name. -/
theorem rtuEncwrBuildsWriteRegistersFrame : Obligations.RtuEncwrBuildsWriteRegistersFrame := by
  refine ⟨fun _ h => decode_of_selector (o := .rtuEncwr) h, fun unit addr x s hs => ⟨fun h => ?_, fun h => ?_⟩⟩
  · have hp : (packRegs x).length ≤ 255 := by rw [packRegs_length]; omega
    exact ⟨_, packRegs x, hostOnly_settle_map_ok hs (rtuEncodeMultiple_ok hp ..) .bytes, packRegs_length x,
      byteAt_packRegs x, onlyCompletes_complete ..⟩
  · have hp : 255 < (packRegs x).length := by rw [packRegs_length]; omega
    exact ⟨_, hostOnly_settle_map_error hs (rtuEncodeMultiple_error hp ..) .bytes, onlyCompletes_complete ..⟩

/-- Settles O21: the four clauses are the four ends of `rtuDecode`. -/
theorem rtuDecChecksInOrder : Obligations.RtuDecChecksInOrder := by
  refine ⟨fun _ h => decode_of_selector (o := .rtuDec) h, fun f s hs => ⟨fun hl => ?_, fun hl hc => ?_,
    fun hl hc hn => ?_, fun hn hc => ?_⟩⟩
  · exact ⟨_, exec_rtuDec_error hs (rtuDecode_short hl), onlyCompletes_complete ..⟩
  · have hm : crcMatches f = false := Bool.eq_false_iff.mpr (mt (crcMatches_eq_true_iff f).mp hc)
    exact ⟨_, exec_rtuDec_error hs (rtuDecode_mismatch hl hm), onlyCompletes_complete ..⟩
  · have hm : crcMatches f = true := (crcMatches_eq_true_iff f).mpr hc
    exact ⟨_, exec_rtuDec_error hs (rtuDecode_truncated hl hm hn), onlyCompletes_complete ..⟩
  · have hm : crcMatches f = true := (crcMatches_eq_true_iff f).mpr hc
    exact ⟨_, exec_rtuDec_ok hs (rtuDecode_ok hn hm), onlyCompletes_complete ..⟩

/-- Settles O22: the byte count of a payload of at most 255 bytes is its length, and no flipped bit passes the CRC
comparison. -/
theorem rtuRoundTripAndBitFlip : Obligations.RtuRoundTripAndBitFlip := by
  intro unit fc p s hs hp
  have hn : (BitVec.ofNat 8 p.length).toNat = p.length := by
    rw [BitVec.toNat_ofNat, Nat.mod_eq_of_lt (by omega)]
  refine ⟨?_, fun k j hk => ?_⟩
  · have hd : rtuDecode (crcAppend ([unit, fc, BitVec.ofNat 8 p.length] ++ p)) = .ok p := by
      rw [rtuDecode_crcAppend_ok hn.le, hn, List.take_length]
    exact ⟨_, exec_rtuDec_ok hs hd, onlyCompletes_complete ..⟩
  · exact ⟨_, exec_rtuDec_error hs (rtuDecode_flipBit (by simp) (by simpa using hk) j), onlyCompletes_complete ..⟩

/-- Settles O23: RTU.DEC reads an echo's address high byte, and an exception's code, as the byte count; three bytes
follow the one and none the other. -/
theorem rtuDecOfEchoAndException : Obligations.RtuDecOfEchoAndException := by
  intro unit fc addr v e s hs
  refine ⟨fun h => ?_, fun h => ?_, fun h => ?_⟩
  · exact ⟨_, exec_rtuDec_ok hs (rtuDecode_crcAppend_ok (p := [lo8 addr, hi8 v, lo8 v]) h), onlyCompletes_complete ..⟩
  · exact ⟨_, exec_rtuDec_error hs (rtuDecode_crcAppend_error (p := [lo8 addr, hi8 v, lo8 v]) h),
      onlyCompletes_complete ..⟩
  · exact ⟨_, exec_rtuDec_error hs (rtuDecode_crcAppend_error (p := []) h), onlyCompletes_complete ..⟩

/-- Settles O24: bit k of the packed form is element k, both ways. -/
theorem coilPackingIsLsbFirst : Obligations.CoilPackingIsLsbFirst := by
  refine ⟨fun _ h => decode_of_selector (o := .packCoils) h, fun _ h => decode_of_selector (o := .unpackCoils) h,
    fun s hs => ⟨fun x => ?_, fun p n h => ?_, fun p n h => ?_⟩⟩
  · exact ⟨_, packCoils x, exec_packCoils hs x, onlyCompletes_complete .., packCoils_length x,
      packedBit_packCoils_of_lt_length x⟩
  · refine ⟨_, _, exec_unpackCoils_ok hs (unpackCoils_ok h), onlyCompletes_complete .., by simp, fun k hk => ?_⟩
    simp [List.getD_eq_getElem?_getD, hk]
  · exact ⟨_, hostOnly_settle_map_error hs (unpackCoils_error h) .bits, onlyCompletes_complete ..⟩

/-- Settles O25: register k is bytes 2k and 2k + 1 of the packed form, both ways. -/
theorem registerPackingIsBigEndian : Obligations.RegisterPackingIsBigEndian := by
  refine ⟨fun _ h => decode_of_selector (o := .packRegs) h, fun _ h => decode_of_selector (o := .unpackRegs) h,
    fun s hs => ⟨fun x => ?_, fun p h => ?_, fun p h => ?_⟩⟩
  · exact ⟨_, packRegs x, exec_packRegs hs x, onlyCompletes_complete .., packRegs_length x, byteAt_packRegs x⟩
  · obtain ⟨hlen, hget⟩ := regsOf_length_get (p.length / 2) p (by omega)
    exact ⟨_, regsOf p, exec_unpackRegs_ok hs (unpackRegs_ok h), onlyCompletes_complete .., hlen, hget⟩
  · exact ⟨_, hostOnly_settle_map_error hs (unpackRegs_error h) .regs, onlyCompletes_complete ..⟩

/-- Settles O26: the state after packing still has H as issuer, and unpacking undoes packing there. -/
theorem packingRoundTrips : Obligations.PackingRoundTrips := by
  intro s hs
  have ht (r : Result) : (complete s none r).issuer = .host := (complete_issuer ..).trans hs
  refine ⟨fun x n hn => ?_, fun x => ?_⟩
  · have hu : unpackCoils (packCoils x) n.toNat = .ok x := hn ▸ unpackCoils_packCoils x
    exact ⟨_, packCoils x, _, exec_packCoils hs x, complete_completion_host hs .., packCoils_length x,
      exec_unpackCoils_ok (ht _) hu, complete_completion_host (ht _) ..⟩
  · exact ⟨_, packRegs x, _, exec_packRegs hs x, complete_completion_host hs ..,
      exec_unpackRegs_ok (ht _) (unpackRegs_packRegs x), complete_completion_host (ht _) ..⟩

end Sys2Proof.Machine
end

section
/-! PROOFS. The MBAP codec (42_mbap_codec.md): the frames its builders answer are the formats TR and TE of the
request's header, on H and at the end of an SRV.TX transaction. -/

namespace Sys2Proof.Machine

/-! ### The bytes of the two response formats (30_encoding.md R87, R88) -/

/-- The transaction id and the protocol id are a frame's first four bytes. -/
theorem header_ids_eq_take {q : List Byte} (hq : 4 ≤ q.length) :
    [hi8 (headerOf q).txn, lo8 (headerOf q).txn, hi8 (headerOf q).proto, lo8 (headerOf q).proto] = q.take 4 := by
  match q, hq with
  | _ :: _ :: _ :: _ :: _, _ => simp [headerOf]

theorem normalFrame_take_four {q : List Byte} (hq : 4 ≤ q.length) (fc : Byte) (p : List Byte) :
    (normalFrame (headerOf q) fc p).take 4 = q.take 4 :=
  header_ids_eq_take hq

@[simp] theorem normalFrame_length (h : MbapHeader) (fc : Byte) (p : List Byte) :
    (normalFrame h fc p).length = 8 + p.length :=
  Nat.add_comm p.length 8

/-- The length field of format TR counts three bytes and the payload (42_mbap_codec.md R175). -/
theorem normalFrame_lengthField (h : MbapHeader) (fc : Byte) {p : List Byte} (hp : p.length ≤ 65532) :
    (be16 (byteAt (normalFrame h fc p) 4) (byteAt (normalFrame h fc p) 5)).toNat = 3 + p.length := by
  have hfield : be16 (byteAt (normalFrame h fc p) 4) (byteAt (normalFrame h fc p) 5) =
      BitVec.ofNat 16 (3 + p.length) := be16_hi8_lo8 _
  rw [hfield, BitVec.toNat_ofNat, Nat.mod_eq_of_lt (by omega)]

theorem errorFrame_headerOf {q : List Byte} (hq : 4 ≤ q.length) (fc : Byte) :
    errorFrame (headerOf q) fc = q.take 4 ++ [0x00, 0x03, byteAt q 6, fc ||| 0x80, 0x01] := by
  rw [← header_ids_eq_take hq]
  rfl

/-! ### What the codec functions answer (42_mbap_codec.md R171, R174, R176) -/

theorem mbapDecode_short {q : List Byte} (h : q.length < 12) : mbapDecode q = .error .formatError := if_pos h

theorem mbapEncode_eq_normalFrame {q p : List Byte} (hq : 7 ≤ q.length) (hp : p.length ≤ 65532) (fc : Byte) :
    mbapEncode q fc p = .ok (normalFrame (headerOf q) fc p) := by
  rw [mbapEncode_ok hq hp, ← header_ids_eq_take (by omega)]
  rfl

theorem mbapEncode_error {q p : List Byte} (h : q.length < 7 ∨ 65532 < p.length) (fc : Byte) :
    mbapEncode q fc p = .error .formatError := by
  by_cases hq : q.length < 7
  · exact if_pos hq
  · rw [mbapEncode, if_neg hq, if_pos (by omega)]

theorem mbapError_eq_errorFrame {q : List Byte} (hq : 7 ≤ q.length) (fc : Byte) :
    mbapError q fc = .ok (errorFrame (headerOf q) fc) := by
  rw [mbapError_ok hq, errorFrame_headerOf (by omega)]

theorem mbapError_short {q : List Byte} (h : q.length < 7) (fc : Byte) : mbapError q fc = .error .formatError :=
  if_pos h

/-! ### The operations on H -/

section
variable {s : State} (hs : s.issuer = .host)
include hs

theorem exec_mbapDec_ok {q : List Byte} (h : 12 ≤ q.length) :
    exec (.mbapDec q) s = .next (complete s none
      (.fields (byteAt q 6) (byteAt q 7) (be16 (byteAt q 8) (byteAt q 9)) (be16 (byteAt q 10) (byteAt q 11)))) :=
  hostOnly_settle_map_ok hs (mbapDecode_ok h) fun r => .fields r.1 r.2.1 r.2.2.1 r.2.2.2

theorem exec_mbapDec_short {q : List Byte} (h : q.length < 12) :
    exec (.mbapDec q) s = .next (complete s (some .formatError) .nothing) :=
  hostOnly_settle_map_error hs (mbapDecode_short h) _

theorem exec_mbapEnc_ok {q p : List Byte} (hq : 7 ≤ q.length) (hp : p.length ≤ 65532) (fc : Byte) :
    exec (.mbapEnc q fc p) s = .next (complete s none (.bytes (normalFrame (headerOf q) fc p))) :=
  hostOnly_settle_map_ok hs (mbapEncode_eq_normalFrame hq hp fc) .bytes

theorem exec_mbapEnc_error {q p : List Byte} (h : q.length < 7 ∨ 65532 < p.length) (fc : Byte) :
    exec (.mbapEnc q fc p) s = .next (complete s (some .formatError) .nothing) :=
  hostOnly_settle_map_error hs (mbapEncode_error h fc) .bytes

theorem exec_mbapErr_ok {q : List Byte} (hq : 7 ≤ q.length) (fc : Byte) :
    exec (.mbapErr q fc) s = .next (complete s none (.bytes (errorFrame (headerOf q) fc))) :=
  hostOnly_settle_map_ok hs (mbapError_eq_errorFrame hq fc) .bytes

theorem exec_mbapErr_short {q : List Byte} (h : q.length < 7) (fc : Byte) :
    exec (.mbapErr q fc) s = .next (complete s (some .formatError) .nothing) :=
  hostOnly_settle_map_error hs (mbapError_short h fc) .bytes

end

/-- Settles O27: a frame is below 12 bytes, or the four fields are read at their offsets. -/
theorem mbapDecReadsFixedFields : Obligations.MbapDecReadsFixedFields := by
  refine ⟨fun _ h => decode_of_selector (o := .mbapDec) h, fun s hs => ⟨fun q hq => ?_, ?_⟩⟩
  · exact ⟨_, exec_mbapDec_short hs hq, onlyCompletes_complete ..⟩
  · intro x0 x1 x2 x3 x4 x5 unit fc aH aL qH qL rest
    exact ⟨_, exec_mbapDec_ok hs (by simp), onlyCompletes_complete ..⟩

/-- Settles O28: the answer is format TR of the request's header. -/
theorem mbapEncBuildsResponse : Obligations.MbapEncBuildsResponse := by
  refine ⟨fun _ h => decode_of_selector (o := .mbapEnc) h, fun q fc p s hs => ⟨fun h => ?_, fun hq hp => ?_⟩⟩
  · exact ⟨_, exec_mbapEnc_error hs h fc, onlyCompletes_complete ..⟩
  · have hlen : ((normalFrame (headerOf q) fc p).drop 6).length = 2 + p.length := by
      rw [List.length_drop, normalFrame_length]
      omega
    exact ⟨_, normalFrame (headerOf q) fc p, exec_mbapEnc_ok hs hq hp fc, onlyCompletes_complete ..,
      normalFrame_take_four (by omega) .., normalFrame_lengthField _ _ hp, rfl, rfl, rfl, hlen⟩

/-- Settles O30: the state after either builder still has H as issuer, and both frames begin with the request's
identifiers. -/
theorem mbapDecodeOfEncodedResponse : Obligations.MbapDecodeOfEncodedResponse := by
  intro q fc p s hs hq hp
  have ht (r : Result) : (complete s none r).issuer = .host := (complete_issuer ..).trans hs
  refine ⟨⟨_, normalFrame (headerOf q) fc p, exec_mbapEnc_ok hs (by omega) hp fc, complete_completion_host hs ..,
    normalFrame_take_four (by omega) .., rfl, rfl, rfl, fun hr => ?_⟩, ?_⟩
  · exact ⟨_, _, _, exec_mbapDec_ok (ht _) hr, complete_completion_host (ht _) ..⟩
  · have hids : (errorFrame (headerOf q) fc).take 2 = q.take 2 := by
      rw [errorFrame_headerOf (by omega), List.take_append_of_le_length (by simp; omega), List.take_take]
      rfl
    exact ⟨_, _, exec_mbapErr_ok hs (by omega) fc, complete_completion_host hs .., hids⟩

/-! ### How a transaction ends (44_function_codes.md R211, R212, R229) -/

theorem errorResponse_eq {q : List Byte} (hq : 7 ≤ q.length) (fc : Byte) (k : ErrKind) (s : State) :
    errorResponse q fc k s = .next (complete s (some k) (.response (some (errorFrame (headerOf q) fc)))) := by
  rw [errorResponse, mbapError_eq_errorFrame hq]
  rfl

theorem conclude_ok {q d : List Byte} (hq : 7 ≤ q.length) (hd : d.length ≤ 65532) (fc : Byte) (s s' : State) :
    conclude q fc (.ok d s') s =
      .next (complete s' none (.response (some (normalFrame (headerOf q) fc d)))) := by
  rw [conclude, mbapEncode_eq_normalFrame hq hd]
  rfl

section
variable {q : List Byte} {s : State} {p : Nat} (hs : s.issuer = .srv p)
include hs

/-- A request below 8 bytes gets no response. -/
theorem exec_srvTx_short (hq : q.length < 8) :
    exec (.srvTx q) s = .next (complete s (some .formatError) (.response none)) :=
  (serverOnly_srv hs _).trans (if_pos hq)

/-- A request that holds its function code but not all fixed fields. -/
theorem exec_srvTx_below_twelve (hq : 8 ≤ q.length) (hl : q.length < 12) :
    exec (.srvTx q) s = errorResponse q (byteAt q 7) .formatError s := by
  rw [exec, execSrvTx, serverOnly_srv hs, if_neg (by omega), mbapDecode_short hl]

/-- A request with an illegal function code. -/
theorem exec_srvTx_illegal (hl : 12 ≤ q.length) (hf : fnOf (byteAt q 7) = none) :
    exec (.srvTx q) s = errorResponse q (byteAt q 7) .protocolError s := by
  rw [exec, execSrvTx, serverOnly_srv hs, if_neg (by omega), mbapDecode_ok hl]
  simp only [hf]

/-- A request with a legal function code ends as its handler replies. -/
theorem exec_srvTx_legal {g : Fn} (hl : 12 ≤ q.length) (hf : fnOf (byteAt q 7) = some g) :
    exec (.srvTx q) s = conclude q (byteAt q 7)
      (handler g q (be16 (byteAt q 8) (byteAt q 9)) (be16 (byteAt q 10) (byteAt q 11)) s) s := by
  rw [exec, execSrvTx, serverOnly_srv hs, if_neg (by omega), mbapDecode_ok hl]
  simp only [hf]

/-- A request of 8 bytes or more is answered: on an error with format TE and no other change, on success with format TR
of at most 256 payload bytes. -/
theorem exec_srvTx_answers (hq : 8 ≤ q.length) :
    (∃ k, exec (.srvTx q) s =
      .next (complete s (some k) (.response (some (errorFrame (headerOf q) (byteAt q 7)))))) ∨
    (∃ d s', d.length ≤ 256 ∧ s'.issuer = .srv p ∧ exec (.srvTx q) s =
      .next (complete s' none (.response (some (normalFrame (headerOf q) (byteAt q 7) d))))) := by
  have hq7 : 7 ≤ q.length := by omega
  have herr (k : ErrKind) := errorResponse_eq hq7 (byteAt q 7) k s
  by_cases hl : q.length < 12
  · exact .inl ⟨_, (exec_srvTx_below_twelve hs hq hl).trans (herr _)⟩
  have hl : 12 ≤ q.length := by omega
  cases hf : fnOf (byteAt q 7) with
  | none => exact .inl ⟨_, (exec_srvTx_illegal hs hl hf).trans (herr _)⟩
  | some g =>
    rw [exec_srvTx_legal hs hl hf]
    cases hr : handler g q (be16 (byteAt q 8) (byteAt q 9)) (be16 (byteAt q 10) (byteAt q 11)) s with
    | fail k => exact .inl ⟨k, herr k⟩
    | ok d s' =>
      obtain ⟨hd, -, -, -, -, -, hissuer⟩ := handler_ok hr
      exact .inr ⟨d, s', hd, hissuer.trans hs, conclude_ok hq7 (by omega) ..⟩

end

/-- Settles O29: the answer is format TE of the request's header, on H and, with STATUS holding the completion's kind,
at every end of SRV.TX that answers with an error. -/
theorem mbapErrBuildsErrorFrame : Obligations.MbapErrBuildsErrorFrame := by
  refine ⟨fun _ h => decode_of_selector (o := .mbapErr) h, fun q fc s hs => ⟨fun hq => ?_, fun hq => ?_⟩, ?_⟩
  · exact ⟨_, exec_mbapErr_short hs hq fc, onlyCompletes_complete ..⟩
  · rw [← errorFrame_headerOf (by omega)]
    exact ⟨_, exec_mbapErr_ok hs hq fc, onlyCompletes_complete ..⟩
  · intro q p s t k f hs hport ht hc
    by_cases hq : q.length < 8
    · cases (exec_srvTx_short hs hq).symm.trans ht
      simp at hc
    have hq : 8 ≤ q.length := by omega
    obtain ⟨k', ho⟩ | ⟨d, s', -, -, ho⟩ := exec_srvTx_answers hs hq
    · cases ho.symm.trans ht
      simp only [complete_completion, Option.some.injEq, Completion.mk.injEq, Result.response.injEq] at hc
      obtain ⟨-, rfl, rfl⟩ := hc
      rw [← hs] at hport ⊢
      exact ⟨errorFrame_headerOf (by omega) _, (onlyCompletes_complete s ..).status hport⟩
    · cases ho.symm.trans ht
      simp at hc

/-- Settles O45: format TE has 9 bytes, and format TR at most 8 + 256. -/
theorem everyRequestWithFunctionCodeIsAnswered : Obligations.EveryRequestWithFunctionCodeIsAnswered := by
  intro q p s hs hq
  have hids : 4 ≤ q.length := by omega
  obtain ⟨k, ho⟩ | ⟨d, s', hd, hs', ho⟩ := exec_srvTx_answers hs hq
  · refine ⟨_, some k, errorFrame (headerOf q) (byteAt q 7), ho, ?_, header_ids_eq_take hids, rfl,
      (by decide : 8 ≤ 9), (by decide : 9 ≤ 264), nofun, fun _ => errorFrame_headerOf hids _⟩
    rw [complete_completion, hs]
  · have hlen : (normalFrame (headerOf q) (byteAt q 7) d).length = 8 + d.length := normalFrame_length ..
    refine ⟨_, none, normalFrame (headerOf q) (byteAt q 7) d, ho, ?_, normalFrame_take_four hids .., rfl,
      by omega, by omega, fun _ => ⟨rfl, ?_⟩, fun h => absurd rfl h⟩
    · rw [complete_completion, hs']
    · rw [normalFrame_lengthField _ _ (by omega), hlen, Nat.add_sub_cancel_left]

end Sys2Proof.Machine
end

section
/-! PROOFS. The data store (43_data_store.md): STORE.GET and STORE.SET, the two laws of R197 along a run and between
server ports, and that an operation which fails leaves the store alone. -/

namespace Sys2Proof.Machine

/-! ### An operation that fails (43_data_store.md R196, 60_exceptions.md R248) -/

/-- An operation that reports an error completed over the very state it started from. -/
theorem exec_of_error {i : Instr} {s t : State} {a : Agent} {k : ErrKind} {r : Result} (ht : exec i s = .next t)
    (hc : t.completion = some ⟨a, some k, r⟩) : t = complete s (some k) r := by
  rcases exec_ends i s with ⟨k', r', -, ho⟩ | ⟨s', r', ho, -⟩
  · cases ho.symm.trans ht
    rw [complete_completion] at hc
    cases hc
    rfl
  · cases ho.symm.trans ht
    rw [complete_completion] at hc
    cases hc

/-- Settles O51: what a failed operation leaves is `complete` of the state itself. -/
theorem failedOperationHasNoEffect : Obligations.FailedOperationHasNoEffect := by
  intro i s t k r ht hc
  obtain rfl := exec_of_error ht hc
  exact ⟨complete_mem .., onlyCompletes_complete ..⟩

/-! ### Decoding (10_state.md R24, 30_encoding.md R100) -/

theorem decode_storeGet {c : Command} {b : Bank} (h : c.op = 0x30) (hb : c.b = bankSelector b) :
    decode c = .ok (.storeGet b c.i) := by
  rw [decode_of_selector (o := .storeGet) h, Selector.instr, hb, bankOf_bankSelector]

theorem decode_storeSet {c : Command} {b : Bank} (h : c.op = 0x31) (hb : c.b = bankSelector b) :
    decode c = .ok (.storeSet c.i (elementFor b c.vBit c.vReg)) := by
  rw [decode_of_selector (o := .storeSet) h, Selector.instr, hb, bankOf_bankSelector]

/-- A frame that carries no function-code instruction is no request of a legal function code. -/
theorem isFunctionRequest_of_decodeFrame_none {q : List Byte} (h : decodeFrame q = none) :
    isFunctionRequest q = false := by
  by_contra hq
  obtain ⟨hlen, hfc⟩ : 12 ≤ q.length ∧ byteAt q 7 ∈ legalFunctionCodes := by
    simpa [isFunctionRequest, byteAt] using hq
  obtain ⟨g, hg⟩ := Option.isSome_iff_exists.mp ((fnOf_isSome_iff _).mpr hfc)
  simp [decodeFrame, hg, not_lt.mpr hlen] at h

theorem instr_wf (g : Fn) (h : MbapHeader) (a n : Half) (rest : List Byte) : (g.instr h a n rest).wf = true := by
  cases g <;> rfl

/-- What a request frame decodes to is well-formed. -/
theorem wf_of_decodeFrame {q : List Byte} {i : Instr} (h : decodeFrame q = some i) : i.wf = true := by
  unfold decodeFrame at h
  split at h
  · cases h
  · split at h
    · cases h
    · cases h
      exact instr_wf ..

/-- What the decoder answers is well-formed. -/
theorem wf_of_decode {c : Command} {i : Instr} (h : decode c = .ok i) : i.wf = true := by
  unfold decode at h
  split at h
  · next o _ =>
    cases h
    cases o
    case srvTx =>
      rw [Selector.instr]
      cases hf : decodeFrame c.bytes with
      | none => simp [Instr.wf, isFunctionRequest_of_decodeFrame_none hf]
      | some i => exact wf_of_decodeFrame hf
    all_goals rfl
  · cases h

/-! ### STORE.GET and STORE.SET (43_data_store.md R191, R192) -/

@[simp] theorem readElement_bank (s : State) (b : Bank) (i : Nat) : (readElement s b i).bank = b := by
  cases b <;> rfl

/-- Completing after one element was written keeps the frame. -/
theorem completes_writeElement (s : State) (i : Nat) (v : Element) (r : Result) :
    Completes s (complete (writeElement s i v) none r) none r :=
  completes_complete (writeElement_statusOf s i v) (writeElement_cfg ..) (writeElement_pending ..)
    (writeElement_issuer ..) none r

section
variable {s : State} (hs : s.issuer = .host) {i : Half}
include hs

theorem exec_storeGet_ok {b : Bank} (hi : i.toNat < s.cfg.cap b) :
    exec (.storeGet b i) s = .next (complete s none (.element (readElement s b i.toNat))) :=
  (hostOnly_host hs _).trans (if_pos hi)

theorem exec_storeGet_outOfRange {b : Bank} (hi : s.cfg.cap b ≤ i.toNat) :
    exec (.storeGet b i) s = .next (complete s (some .outOfRangeError) .nothing) :=
  (hostOnly_host hs _).trans (if_neg (not_lt.mpr hi))

theorem exec_storeSet_ok {v : Element} (hi : i.toNat < s.cfg.cap v.bank) :
    exec (.storeSet i v) s = .next (complete (writeElement s i.toNat v) none .nothing) :=
  (hostOnly_host hs _).trans (if_pos hi)

theorem exec_storeSet_outOfRange {v : Element} (hi : s.cfg.cap v.bank ≤ i.toNat) :
    exec (.storeSet i v) s = .next (complete s (some .outOfRangeError) .nothing) :=
  (hostOnly_host hs _).trans (if_neg (not_lt.mpr hi))

end

/-- Settles O31: below the capacity and from it on, STORE.GET completes on the state itself. -/
theorem storeGetReadsElement : Obligations.StoreGetReadsElement := by
  refine ⟨fun c h => ⟨?_, ?_, ?_, ?_⟩, fun b i s hs => ⟨fun hi => ?_, fun hi => ?_⟩⟩
  · exact decode_storeGet (b := .bit .coil) h
  · exact decode_storeGet (b := .bit .disc) h
  · exact decode_storeGet (b := .reg .hold) h
  · exact decode_storeGet (b := .reg .inpt) h
  · exact ⟨_, exec_storeGet_ok hs hi, onlyCompletes_complete ..⟩
  · exact ⟨_, exec_storeGet_outOfRange hs hi, onlyCompletes_complete ..⟩

/-- Writing the value an element holds leaves every element as it was. -/
theorem readElement_writeElement_readElement (s : State) (b b' : Bank) (i j : Nat) :
    readElement (writeElement s i (readElement s b i)) b' j = readElement s b' j := by
  rw [readElement_writeElement, readElement_bank]
  split
  · next h => rw [h.1, h.2]
  · rfl

/-- Only STORE.SET changes an element of a bank that no function code writes (10_state.md R25). -/
theorem exec_keeps_element_of_no_storeSet {j : Instr} {s t : State} (hj : ∀ i v, j ≠ .storeSet i v)
    (ht : exec j s = .next t) {b : Bank} (hcoil : b ≠ .bit .coil) (hhold : b ≠ .reg .hold) (i : Nat) :
    readElement t b i = readElement s b i := by
  by_contra hne
  rcases (writeRightsFollowThePort j s t ht).2 b i hne with ⟨-, k, v, rfl, -⟩ | ⟨-, hb, -⟩ | ⟨-, hb, -⟩
  · exact hj k v rfl
  · exact hcoil hb
  · exact hhold hb

/-- Settles O32: STORE.SET is one `writeElement`, and the write rights of R25 leave DISC and INPT to it alone. -/
theorem storeSetWritesElement : Obligations.StoreSetWritesElement := by
  refine ⟨fun c h => ⟨?_, ?_, ?_, ?_⟩, fun i v s hs => ⟨fun hi => ?_, fun hi => ?_⟩, ?_, ?_⟩
  · exact decode_storeSet (b := .bit .coil) h
  · exact decode_storeSet (b := .bit .disc) h
  · exact decode_storeSet (b := .reg .hold) h
  · exact decode_storeSet (b := .reg .inpt) h
  · refine ⟨_, exec_storeSet_ok hs hi, completes_writeElement .., by simp, ?_, fun b' j hout => ?_⟩
    · rw [readElement_complete, readElement_writeElement, if_pos ⟨rfl, rfl⟩]
    · rw [readElement_complete, readElement_writeElement,
        if_neg fun h => hout ⟨h.1, by omega, by omega⟩]
  · exact ⟨_, exec_storeSet_outOfRange hs hi, onlyCompletes_complete ..⟩
  · intro i b s t hs hi ht b' j
    cases (exec_storeSet_ok hs (v := readElement s b i.toNat) (by rwa [readElement_bank])).symm.trans ht
    rw [readElement_complete, readElement_writeElement_readElement]
  · intro j s t hj ht i
    have hdisc : readElement t (.bit .disc) i = readElement s (.bit .disc) i :=
      exec_keeps_element_of_no_storeSet hj ht (by decide) (by decide) i
    have hinpt : readElement t (.reg .inpt) i = readElement s (.reg .inpt) i :=
      exec_keeps_element_of_no_storeSet hj ht (by decide) (by decide) i
    exact ⟨by simpa [readElement] using hdisc, by simpa [readElement] using hinpt⟩

/-! ### An element along a run (43_data_store.md R197) -/

@[simp] theorem readElement_accept (s : State) (a : Agent) (l : List Input) (b : Bank) (i : Nat) :
    readElement (accept s a l) b i = readElement s b i := readElement_congr rfl rfl b i

/-- Along the run of s through the inputs l, every operation that names element i of bank b and succeeds leaves it
at v. -/
def NamingWritesLeave (s : State) (l : List Input) (b : Bank) (i : Nat) (v : Element) : Prop :=
  ∀ (k : Nat) (a : Agent) (c : Command) (j : Instr) (u : State) (r : Result),
    l[k]? = some (.op a c) → decode c = .ok j → namesElement a j b i = true →
    Host.Core.run Sys2Proof.core (k + 1) s = .next u → u.completion = some ⟨a, none, r⟩ → readElement u b i = v

/-- The property of the first operation. -/
theorem NamingWritesLeave.head {s t : State} {a : Agent} {c : Command} {l : List Input} {b : Bank} {i : Nat}
    {v : Element} (h : NamingWritesLeave s (.op a c :: l) b i v) (ht : step s = .next t) {j : Instr} {r : Result}
    (hd : decode c = .ok j) (hn : namesElement a j b i = true) (hc : t.completion = some ⟨a, none, r⟩) :
    readElement t b i = v :=
  h 0 a c j t r rfl hd hn (run_succ ht) hc

/-- The property of the operations behind the first input. -/
theorem NamingWritesLeave.tail {s t : State} {x : Input} {l : List Input} {b : Bank} {i : Nat} {v : Element}
    (h : NamingWritesLeave s (x :: l) b i v) (ht : step s = .next t) : NamingWritesLeave t l b i v :=
  fun k a c j u r hk hd hn hu hc => h (k + 1) a c j u r hk hd hn ((run_succ ht).trans hu) hc

/-- A step leaves an element at v when it stood at v and the operation does not name it, fails, or leaves it at v. -/
theorem step_keeps_element {s t : State} {a : Agent} {c : Command} {l rest : List Input} {b : Bank} {i : Nat}
    {v : Element} (hp : s.pending = .op a c :: rest) (ha : hasAgent s.cfg a = true) (ht : step s = .next t)
    (hw : NamingWritesLeave s (.op a c :: l) b i v) (hv : readElement s b i = v) : readElement t b i = v := by
  have hv' : readElement (accept s a rest) b i = v := (readElement_accept ..).trans hv
  cases hd : decode c with
  | error e =>
    cases (step_of_decode_error hp ha hd).symm.trans ht
    rwa [readElement_complete]
  | ok j =>
    have he : exec j (accept s a rest) = .next t := (step_of_decode_ok hp ha hd).symm.trans ht
    cases hn : namesElement a j b i with
    | false => exact (exec_keeps_unnamed (wf_of_decode hd) he hn).trans hv'
    | true =>
      obtain ⟨t', e, r, ho, hc, -⟩ := exec_completes j (accept s a rest)
      cases ho.symm.trans he
      cases e with
      | none => exact hw.head ht hd hn hc.completion
      | some k =>
        obtain rfl := exec_of_error he hc.completion
        rwa [readElement_complete]

/-- A run through operations that leave an element at v takes them all, keeps the configuration, and leaves it at v. -/
theorem run_keeps_element {l rest : List Input} {s : State} {b : Bank} {i : Nat} {v : Element}
    (hp : s.pending = l ++ rest) (hall : ∀ x ∈ l, x ≠ .reset ∧ issuable s.cfg x = true)
    (hw : NamingWritesLeave s l b i v) (hv : readElement s b i = v) :
    ∃ t : State, Host.Core.run Sys2Proof.core l.length s = .next t ∧ t.pending = rest ∧ t.cfg = s.cfg ∧
      readElement t b i = v := by
  induction l generalizing s with
  | nil => exact ⟨s, rfl, hp, rfl, hv⟩
  | cons x l ih =>
    obtain ⟨hx, hissuable⟩ := hall x List.mem_cons_self
    obtain ⟨t, ht, hcfg, hrest, -⟩ := step_issuable hp hissuable
    have hvt : readElement t b i = v := by
      cases x with
      | reset => exact absurd rfl hx
      | op a c => exact step_keeps_element hp hissuable ht hw hv
    have hall' : ∀ y ∈ l, y ≠ .reset ∧ issuable t.cfg y = true := fun y hy =>
      hcfg ▸ hall y (List.mem_cons_of_mem x hy)
    obtain ⟨u, hu, hupend, hucfg, hvu⟩ := ih hrest hall' (hw.tail ht) hvt
    exact ⟨u, (run_succ ht).trans hu, hupend, hucfg.trans hcfg, hvu⟩

section
variable {s : State} {c : Command} {rest : List Input} {i : Half} (hp : s.pending = .op .host c :: rest)
include hp

/-- A step that takes a STORE.SET in range leaves the element at its value. -/
theorem step_storeSet {v : Element} (hd : decode c = .ok (.storeSet i v)) (hi : i.toNat < s.cfg.cap v.bank) :
    ∃ t, step s = .next t ∧ t.cfg = s.cfg ∧ t.pending = rest ∧ readElement t v.bank i.toNat = v := by
  refine ⟨_, (step_of_decode_ok hp rfl hd).trans (exec_storeSet_ok rfl hi), by simp, by simp, ?_⟩
  rw [readElement_complete, readElement_writeElement, if_pos ⟨rfl, rfl⟩]

/-- A step that takes a STORE.GET in range returns the element. -/
theorem step_storeGet {b : Bank} (hd : decode c = .ok (.storeGet b i)) (hi : i.toNat < s.cfg.cap b) :
    ∃ t, step s = .next t ∧ t.pending = rest ∧
      t.completion = some ⟨.host, none, .element (readElement s b i.toNat)⟩ :=
  ⟨_, (step_of_decode_ok hp rfl hd).trans (exec_storeGet_ok rfl hi), by simp, by simp⟩

end

/-- Settles O33: STORE.SET leaves the element at v, the operations between keep it there, and STORE.GET returns it. -/
theorem storeSetThenGet : Obligations.StoreSetThenGet := by
  intro s cs cg between after i v hp hset hget hi hall hw
  obtain ⟨s₁, h₁, hcfg₁, hpend₁, hv₁⟩ := step_storeSet hp hset hi
  have hleave : NamingWritesLeave s₁ between v.bank i.toNat v := fun k a c j u r hk hd hn hu hc =>
    hw k a c j u r hk hd hn ((run_succ h₁).trans hu) hc
  obtain ⟨s₂, h₂, hpend₂, hcfg₂, hv₂⟩ := run_keeps_element hpend₁ (hcfg₁.symm ▸ hall) hleave hv₁
  obtain ⟨t, ht, hpend, hdone⟩ := step_storeGet hpend₂ hget (by rwa [hcfg₂, hcfg₁])
  exact ⟨t, (run_succ h₁).trans ((run_add h₂).trans (run_succ ht)), hv₂ ▸ hdone, hpend⟩

/-! ### Registers written by one port, read by another (43_data_store.md R197, 20_memory.md R62) -/

/-- The ranged write read back over its own range. -/
theorem readRegs_writeRegs (s : State) (b : RegBank) (a : Nat) {x : List Half} {n : Nat} (hx : x.length = n) :
    readRegs (writeRegs s b a x) b a n = x := by
  refine List.ext_getElem (by simp [hx]) fun k _ hk => ?_
  simp [readRegs, readReg_writeRegs, hk]

theorem readRegs_congr {s t : State} (hc : t.cfg = s.cfg) (hm : t.mem = s.mem) (b : RegBank) (a q : Nat) :
    readRegs t b a q = readRegs s b a q :=
  List.map_congr_left fun k _ => readReg_congr hc hm b (a + k)

/-- Packing undoes unpacking on a payload of even length. -/
theorem packRegs_regsOf (n : Nat) : ∀ p : List Byte, p.length = 2 * n → packRegs (regsOf p) = p := by
  induction n with
  | zero =>
    intro p hp
    obtain rfl : p = [] := List.length_eq_zero_iff.mp hp
    rfl
  | succ n ih =>
    intro p hp
    match p, hp with
    | h :: l :: p, hp =>
      have hlen : p.length = 2 * n := by simp only [List.length_cons] at hp; omega
      rw [regsOf, packRegs, ih p hlen, hi8_be16, lo8_be16]
    | [_], hp => simp only [List.length_cons, List.length_nil] at hp; omega

/-- What the handler of 0x10 found in the request it answered, and what it did (44_function_codes.md R228). -/
theorem writeRegsReply_ok {h : MbapHeader} {fc : Byte} {a n : Half} {rest d : List Byte} {s s' : State}
    (hr : writeRegsReply (requestFrame h fc a n rest) a n s = .ok d s') :
    2 * n.toNat ≤ 255 ∧ ((rest.drop 1).take (2 * n.toNat)).length = 2 * n.toNat ∧
      inRange s.cfg (.reg .hold) a.toNat n.toNat ∧
      s' = writeRegs s .hold a.toNat (regsOf ((rest.drop 1).take (2 * n.toNat))) := by
  rw [writeRegsReply, multiplePayload_requestFrame] at hr
  by_cases hshape : 1 + (byteAt rest 0).toNat ≤ rest.length ∧ (byteAt rest 0).toNat = 2 * n.toNat
  · rw [if_pos hshape] at hr
    have hcount : (byteAt rest 0).toNat < 256 := (byteAt rest 0).isLt
    have hlen : ((rest.drop 1).take (2 * n.toNat)).length = 2 * n.toNat := by simp; omega
    by_cases hrange : inRange s.cfg (.reg .hold) a.toNat n.toNat
    · simp only [if_neg (not_not_intro hrange), unpackRegs_ok (show _ % 2 = 0 by rw [hlen]; omega)] at hr
      cases hr
      exact ⟨by omega, hlen, hrange, rfl⟩
    · simp only [if_pos hrange] at hr
      cases hr
  · rw [if_neg hshape] at hr
    cases hr

/-- A function-code instruction that succeeded is one whose handler answered. -/
theorem handler_of_exec_fn_ok (g : Fn) {h : MbapHeader} {a n : Half} {rest : List Byte} {s t : State} {c : Agent}
    {r : Result} (ht : exec (g.instr h a n rest) s = .next t) (hc : t.completion = some ⟨c, none, r⟩) :
    ∃ d s', handler g (requestFrame h g.byte a n rest) a n s = .ok d s' ∧ t = complete s' none r := by
  rw [exec_fn] at ht
  cases hs : s.issuer with
  | host =>
    cases (serverOnly_host hs _).symm.trans ht
    simp at hc
  | srv p =>
    rw [serverOnly_srv hs] at ht
    cases hr : handler g (requestFrame h g.byte a n rest) a n s with
    | ok d s' =>
      rw [hr] at ht
      cases ht
      cases hc
      exact ⟨d, s', rfl, rfl⟩
    | fail k =>
      rw [hr] at ht
      cases ht
      cases hc

/-- A function-code instruction whose handler answers ends with the normal frame. -/
theorem exec_fn_ok (g : Fn) {h : MbapHeader} {a n : Half} {rest d : List Byte} {s s' : State} {p : Nat}
    (hs : s.issuer = .srv p) (hr : handler g (requestFrame h g.byte a n rest) a n s = .ok d s') :
    exec (g.instr h a n rest) s = .next (complete s' none (.response (some (normalFrame h g.byte d)))) := by
  have hd : d.length ≤ 65532 := (handler_ok hr).1.trans (by decide)
  rw [exec_fn, serverOnly_srv hs, hr, conclude_ok (by rw [requestFrame_length]; omega) hd, headerOf_requestFrame]

/-- The read of a register range that exists and fits a response (44_function_codes.md R222, R223). -/
theorem readRegsReply_ok {b : RegBank} {a q : Nat} {s : State} (hrange : inRange s.cfg (.reg b) a q)
    (hq : 2 * q ≤ 255) : readRegsReply b a q s = .ok (countByte (2 * q) :: packRegs (readRegs s b a q)) s := by
  rw [readRegsReply, if_neg (not_not_intro hrange), if_neg (not_lt.mpr hq)]

/-- Settles O46: the write was in range and at most 127 registers, so the read succeeds, and packing the registers the
payload was read as gives the payload. -/
theorem registersWrittenAreReadByEveryPort : Obligations.RegistersWrittenAreReadByEveryPort := by
  intro h h' a n rest rest' p p' s t r hs ht hc
  obtain ⟨d, s', hr, rfl⟩ := handler_of_exec_fn_ok .writeMultipleRegisters ht hc
  obtain ⟨hn, hlen, hrange, rfl⟩ := writeRegsReply_ok hr
  generalize (rest.drop 1).take (2 * n.toNat) = payload at *
  have hread : readRegs { complete (writeRegs s .hold a.toNat (regsOf payload)) none r with issuer := .srv p' } .hold
      a.toNat n.toNat = regsOf payload :=
    (readRegs_congr (complete_cfg _ none r) (complete_mem _ none r) ..).trans
      (readRegs_writeRegs s .hold a.toNat (regsOf_length_get n.toNat payload hlen).1)
  refine ⟨_, exec_fn_ok .readHoldingRegisters (p := p') rfl (readRegsReply_ok (by simpa using hrange) hn), ?_⟩
  rw [complete_completion, hread, packRegs_regsOf n.toNat payload hlen]
  rfl

end Sys2Proof.Machine
end

section
/-! PROOFS. The request executor (44_function_codes.md): what each handler answers to a request frame, that no handler
reads the header, and how the eight function codes and the requests without one complete. -/

namespace Sys2Proof.Machine

/-! ### Requests without a function-code instruction (44_function_codes.md R212, R229) -/

theorem fnOf_eq_none_iff (fc : Byte) : fnOf fc = none ↔ fc ∉ legalFunctionCodes := by
  rw [← fnOf_isSome_iff, Option.not_isSome_iff_eq_none]

/-- The error end of a transaction answers format TE of the request and does nothing else. -/
theorem errorResponse_onlyCompletes {q : List Byte} (hq : 7 ≤ q.length) (fc : Byte) (k : ErrKind) (s : State) :
    ∃ t, errorResponse q fc k s = .next t ∧ OnlyCompletes s t (some k)
      (.response (some (q.take 4 ++ [0x00, 0x03, byteAt q 6, fc ||| 0x80, 0x01]))) := by
  rw [← errorFrame_headerOf (by omega)]
  exact ⟨_, errorResponse_eq hq fc k s, onlyCompletes_complete ..⟩

/-- Settles O35: a short request ends before any handler, and no operation that fails changes the store. -/
theorem shortRequestsAreFormatErrors : Obligations.ShortRequestsAreFormatErrors := by
  intro q p s hs
  refine ⟨fun hq => ?_, fun hq hl => ?_, fun t k r ht hc => ?_⟩
  · exact ⟨_, exec_srvTx_short hs hq, onlyCompletes_complete ..⟩
  · rw [exec_srvTx_below_twelve hs hq hl]
    exact errorResponse_onlyCompletes (by omega) ..
  · exact (failedOperationHasNoEffect _ s t k r ht (hs ▸ hc)).2.store

/-- Settles O36: no handler is selected. -/
theorem illegalFunctionCodeIsProtocolError : Obligations.IllegalFunctionCodeIsProtocolError := by
  intro q p s hs hl hfc
  rw [exec_srvTx_illegal hs hl ((fnOf_eq_none_iff _).mpr hfc)]
  exact errorResponse_onlyCompletes (by omega) ..

/-! ### How a function-code instruction ends (44_function_codes.md R211) -/

section
variable {g : Fn} {h : MbapHeader} {a n : Half} {rest : List Byte} {s : State} {p : Nat}

/-- A function-code instruction whose handler fails ends with the error frame. -/
theorem exec_fn_fail {k : ErrKind} (hs : s.issuer = .srv p)
    (hr : handler g (requestFrame h g.byte a n rest) a n s = .fail k) :
    exec (g.instr h a n rest) s = .next (complete s (some k) (.response (some (errorFrame h g.byte)))) := by
  rw [exec_fn, serverOnly_srv hs, hr, conclude, errorResponse_eq (by rw [requestFrame_length]; omega),
    headerOf_requestFrame]

/-- A function-code instruction whose handler fails does nothing but complete. -/
theorem exec_fn_fail_onlyCompletes {k : ErrKind} (hs : s.issuer = .srv p)
    (hr : handler g (requestFrame h g.byte a n rest) a n s = .fail k) :
    ∃ t, exec (g.instr h a n rest) s = .next t ∧
      OnlyCompletes s t (some k) (.response (some (errorFrame h g.byte))) :=
  ⟨_, exec_fn_fail hs hr, onlyCompletes_complete ..⟩

/-- Completing over the state a handler leaves keeps the frame. -/
theorem completes_of_handler_ok {q d : List Byte} {s' : State} (hr : handler g q a n s = .ok d s') (r : Result) :
    Completes s (complete s' none r) none r := by
  obtain ⟨-, -, hH, hS, hcfg, hpend, hissuer⟩ := handler_ok hr
  exact completes_complete (statusOf_congr s s' hH hS) hcfg hpend hissuer none r

/-- Neither a handler nor the completion after it changes CRC. -/
theorem crc_of_handler_ok {q d : List Byte} {s' : State} (hr : handler g q a n s = .ok d s') (r : Result) :
    (complete s' none r).crc = s.crc := by
  obtain ⟨-, hcrc, -⟩ := handler_ok hr
  exact (complete_crc s' none r).trans hcrc

/-- A handler changes no element outside a range that holds all those its request names. -/
theorem storeKeptOutside_of_handler_ok {d : List Byte} {s' : State}
    (hr : handler g (requestFrame h g.byte a n rest) a n s = .ok d s') {b : Bank} {i m : Nat}
    (hn : ∀ p b' j, ¬ (b' = b ∧ i ≤ j ∧ j < i + m) → namesElement (.srv p) (g.instr h a n rest) b' j = false)
    (r : Result) : StoreKeptOutside s (complete s' none r) b i m := fun b' j hout =>
  (readElement_complete s' none r b' j).trans (handler_keeps_unnamed hr (hn 0 b' j hout))

end

/-! ### The read handlers (44_function_codes.md R220 to R223) -/

theorem readBitsReply_ok {b : BitBank} {a q : Nat} {s : State} (hrange : inRange s.cfg (.bit b) a q)
    (hq : q ≤ 2040) : readBitsReply b a q s = .ok (countByte (ceil8 q) :: packCoils (readBits s b a q)) s := by
  rw [readBitsReply, if_neg (not_not_intro hrange), if_neg (by unfold ceil8; omega)]

theorem readBitsReply_fail {b : BitBank} {a q : Nat} {s : State} (h : ¬ (inRange s.cfg (.bit b) a q ∧ q ≤ 2040)) :
    readBitsReply b a q s = .fail .outOfRangeError := by
  by_cases hrange : inRange s.cfg (.bit b) a q
  · have hq : ceil8 q > 255 := by unfold ceil8; omega
    rw [readBitsReply, if_neg (not_not_intro hrange), if_pos hq]
  · exact if_pos hrange

theorem readRegsReply_fail {b : RegBank} {a q : Nat} {s : State} (h : ¬ (inRange s.cfg (.reg b) a q ∧ q ≤ 127)) :
    readRegsReply b a q s = .fail .outOfRangeError := by
  by_cases hrange : inRange s.cfg (.reg b) a q
  · rw [readRegsReply, if_neg (not_not_intro hrange), if_pos (by omega)]
  · exact if_pos hrange

theorem readBits_getD (s : State) (b : BitBank) (a q k : Nat) :
    (readBits s b a q).getD k false = if k < q then readBit s b (a + k) else false := by
  by_cases hk : k < q <;> simp [readBits, List.getD_eq_getElem?_getD, hk]

theorem readRegs_getD (s : State) (b : RegBank) (a : Nat) {q k : Nat} (hk : k < q) :
    (readRegs s b a q).getD k 0 = readReg s b (a + k) := by
  simp [readRegs, List.getD_eq_getElem?_getD, hk]

/-- Settles O39: one handler reads either bank, and bit k of the packed range is element k of it. -/
theorem readBitsFunctionCodes : Obligations.ReadBitsFunctionCodes := by
  intro h a n rest p s hs b _ i fc
  obtain ⟨g, hi, hfc, hg⟩ : ∃ g : Fn, i = g.instr h a n rest ∧ fc = g.byte ∧
      ∀ q, handler g q a n s = readBitsReply b a.toNat n.toNat s := by
    cases b with
    | coil => exact ⟨.readCoils, rfl, rfl, fun _ => rfl⟩
    | disc => exact ⟨.readDiscreteInputs, rfl, rfl, fun _ => rfl⟩
  rw [hi, hfc]
  refine ⟨fun ⟨hrange, hn⟩ => ?_, fun hbad => ?_⟩
  · have hlen : (packCoils (readBits s b a.toNat n.toNat)).length = (n.toNat + 7) / 8 := by simp
    refine ⟨_, packCoils (readBits s b a.toNat n.toNat), exec_fn_ok g hs ((hg _).trans (readBitsReply_ok hrange hn)),
      hlen, fun k hk => ?_, ?_⟩
    · rw [packedBit_packCoils_of_lt_length _ k hk, readBits_getD]
    · rw [hlen]
      exact onlyCompletes_complete ..
  · exact exec_fn_fail_onlyCompletes hs ((hg _).trans (readBitsReply_fail hbad))

/-- Settles O40: one handler reads either bank, and register k of the packed range is element k of it. -/
theorem readRegistersFunctionCodes : Obligations.ReadRegistersFunctionCodes := by
  intro h a n rest p s hs b _ i fc
  obtain ⟨g, hi, hfc, hg⟩ : ∃ g : Fn, i = g.instr h a n rest ∧ fc = g.byte ∧
      ∀ q, handler g q a n s = readRegsReply b a.toNat n.toNat s := by
    cases b with
    | hold => exact ⟨.readHoldingRegisters, rfl, rfl, fun _ => rfl⟩
    | inpt => exact ⟨.readInputRegisters, rfl, rfl, fun _ => rfl⟩
  rw [hi, hfc]
  refine ⟨fun ⟨hrange, hn⟩ => ?_, fun hbad => ?_⟩
  · have hlen : (packRegs (readRegs s b a.toNat n.toNat)).length = 2 * n.toNat := by simp
    refine ⟨_, packRegs (readRegs s b a.toNat n.toNat),
      exec_fn_ok g hs ((hg _).trans (readRegsReply_ok hrange (by omega))), hlen, fun k hk => ?_, ?_⟩
    · rw [← readRegs_getD s b a.toNat hk]
      exact byteAt_packRegs _ k (by simpa using hk)
    · rw [hlen]
      exact onlyCompletes_complete ..
  · exact exec_fn_fail_onlyCompletes hs ((hg _).trans (readRegsReply_fail hbad))

/-! ### The single writes (44_function_codes.md R224 to R226) -/

theorem coilValue_ok {v : Half} (hv : v = 0xFF00 ∨ v = 0x0000) : coilValue v = .ok (decide (v = 0xFF00)) := by
  rcases hv with rfl | rfl <;> rfl

theorem coilValue_error {v : Half} (hon : v ≠ 0xFF00) (hoff : v ≠ 0x0000) : coilValue v = .error .formatError := by
  rw [coilValue, if_neg hon, if_neg hoff]

theorem inRange_one (c : Config) (b : Bank) (a : Nat) : inRange c b a 1 ↔ a < c.cap b := and_self_iff

section
variable {h : MbapHeader} {fc : Byte} {a n : Half} {rest : List Byte} {s : State}

theorem writeCoilReply_ok {v : Bool} (hv : coilValue n = .ok v) (ha : a.toNat < s.cfg.cap (.bit .coil)) :
    writeCoilReply (requestFrame h fc a n rest) a n s =
      .ok [hi8 a, lo8 a, hi8 n, lo8 n] (writeBit s .coil a.toNat v) := by
  simp only [writeCoilReply, hv, inRange_one, ha, if_true, slice_requestFrame]

theorem writeCoilReply_outOfRange {v : Bool} (hv : coilValue n = .ok v) (ha : s.cfg.cap (.bit .coil) ≤ a.toNat)
    (q : List Byte) : writeCoilReply q a n s = .fail .outOfRangeError := by
  simp only [writeCoilReply, hv, inRange_one, not_lt.mpr ha, if_false]

theorem writeCoilReply_badValue {k : ErrKind} (hv : coilValue n = .error k) (q : List Byte) :
    writeCoilReply q a n s = .fail k := by
  simp only [writeCoilReply, hv]

theorem writeRegReply_ok (ha : a.toNat < s.cfg.cap (.reg .hold)) :
    writeRegReply (requestFrame h fc a n rest) a n s =
      .ok [hi8 a, lo8 a, hi8 n, lo8 n] (writeReg s .hold a.toNat n) := by
  rw [writeRegReply, if_pos ((inRange_one ..).mpr ha), slice_requestFrame]

theorem writeRegReply_outOfRange (ha : s.cfg.cap (.reg .hold) ≤ a.toNat) (q : List Byte) :
    writeRegReply q a n s = .fail .outOfRangeError := by
  rw [writeRegReply, if_neg (by rw [inRange_one]; omega)]

end

/-- Settles O41: the handler checks the value, then the address, and writes one coil. -/
theorem writeSingleCoilFunctionCode : Obligations.WriteSingleCoilFunctionCode := by
  intro h a v rest p s hs
  refine ⟨fun hv ha => ?_, fun hv ha => ?_, fun hon hoff => ?_⟩
  · have hr : handler .writeSingleCoil (requestFrame h 0x05 a v rest) a v s = .ok _ _ :=
      writeCoilReply_ok (coilValue_ok hv) ha
    refine ⟨_, exec_fn_ok .writeSingleCoil hs hr, completes_of_handler_ok hr _, crc_of_handler_ok hr _, ?_,
      storeKeptOutside_of_handler_ok hr (fun _ b j hout => ?_) _⟩
    · simp [readBit_writeBit]
    · exact decide_eq_false fun ⟨hb, hj⟩ => hout ⟨hb, by omega⟩
  · exact exec_fn_fail_onlyCompletes (g := .writeSingleCoil) hs (writeCoilReply_outOfRange (coilValue_ok hv) ha _)
  · exact exec_fn_fail_onlyCompletes (g := .writeSingleCoil) hs (writeCoilReply_badValue (coilValue_error hon hoff) _)

/-- Settles O42: the handler checks the address and writes one register. -/
theorem writeSingleRegisterFunctionCode : Obligations.WriteSingleRegisterFunctionCode := by
  intro h a v rest p s hs
  refine ⟨fun ha => ?_, fun ha => ?_⟩
  · have hr : handler .writeSingleRegister (requestFrame h 0x06 a v rest) a v s = .ok _ _ := writeRegReply_ok ha
    refine ⟨_, exec_fn_ok .writeSingleRegister hs hr, completes_of_handler_ok hr _, crc_of_handler_ok hr _, ?_,
      storeKeptOutside_of_handler_ok hr (fun _ b j hout => ?_) _⟩
    · simp [readReg_writeReg]
    · exact decide_eq_false fun ⟨hb, hj⟩ => hout ⟨hb, by omega⟩
  · exact exec_fn_fail_onlyCompletes (g := .writeSingleRegister) hs (writeRegReply_outOfRange ha _)

/-! ### The multiple writes (44_function_codes.md R227, R228) -/

theorem byteAt_take {p : List Byte} {m i : Nat} (hi : i < m) : byteAt (p.take m) i = byteAt p i := by
  simp [byteAt, List.getD_eq_getElem?_getD, hi]

theorem byteAt_drop (p : List Byte) (m i : Nat) : byteAt (p.drop m) i = byteAt p (m + i) := by
  simp [byteAt, List.getD_eq_getElem?_getD]

/-- Unpacking reads no byte past those its count needs. -/
theorem unpackCoils_take {p : List Byte} {m n : Nat} (hn : n ≤ 8 * m) (hm : m ≤ p.length) :
    unpackCoils (p.take m) n = .ok ((List.range n).map (packedBit p)) := by
  rw [unpackCoils_ok (by rw [List.length_take_of_le hm]; exact hn)]
  refine congrArg Except.ok (List.map_congr_left fun k hk => ?_)
  have hk : k < n := List.mem_range.mp hk
  rw [packedBit, packedBit, byteAt_take (by omega)]

/-- The elements of a ranged write, read back one by one. -/
theorem readBit_writeBits_add (s : State) (b : BitBank) (a : Nat) {x : List Bool} {k : Nat} (hk : k < x.length) :
    readBit (writeBits s b a x) b (a + k) = x.getD k false := by
  simp [readBit_writeBits, hk]

theorem readReg_writeRegs_add (s : State) (b : RegBank) (a : Nat) {x : List Half} {k : Nat} (hk : k < x.length) :
    readReg (writeRegs s b a x) b (a + k) = x.getD k 0 := by
  simp [readReg_writeRegs, hk]

section
variable {h : MbapHeader} {fc : Byte} {a n : Half} {rest : List Byte} {s : State}

theorem multiplePayload_ok {need : Nat} (hcount : 1 + (byteAt rest 0).toNat ≤ rest.length)
    (hneed : (byteAt rest 0).toNat = need) :
    multiplePayload (requestFrame h fc a n rest) need = .ok ((rest.drop 1).take need) := by
  rw [multiplePayload_requestFrame, if_pos ⟨hcount, hneed⟩]

theorem multiplePayload_error {need : Nat}
    (hshape : ¬ (1 + (byteAt rest 0).toNat ≤ rest.length ∧ (byteAt rest 0).toNat = need)) :
    multiplePayload (requestFrame h fc a n rest) need = .error .formatError := by
  rw [multiplePayload_requestFrame, if_neg hshape]

theorem writeCoilsReply_badShape {q : List Byte} {k : ErrKind} (hp : multiplePayload q (ceil8 n.toNat) = .error k) :
    writeCoilsReply q a n s = .fail k := by
  simp only [writeCoilsReply, hp]

theorem writeCoilsReply_outOfRange {q p : List Byte} (hp : multiplePayload q (ceil8 n.toNat) = .ok p)
    (hrange : ¬ inRange s.cfg (.bit .coil) a.toNat n.toNat) : writeCoilsReply q a n s = .fail .outOfRangeError := by
  simp only [writeCoilsReply, hp, if_pos hrange]

theorem writeCoilsReply_writes (hcount : 1 + (byteAt rest 0).toNat ≤ rest.length)
    (hneed : (byteAt rest 0).toNat = ceil8 n.toNat) (hrange : inRange s.cfg (.bit .coil) a.toNat n.toNat) :
    writeCoilsReply (requestFrame h fc a n rest) a n s = .ok [hi8 a, lo8 a, hi8 n, lo8 n]
      (writeBits s .coil a.toNat ((List.range n.toNat).map (packedBit (rest.drop 1)))) := by
  have hbits : n.toNat ≤ 8 * ceil8 n.toNat := by unfold ceil8; omega
  have hbytes : ceil8 n.toNat ≤ (rest.drop 1).length := by rw [List.length_drop]; omega
  simp only [writeCoilsReply, multiplePayload_ok hcount hneed, if_neg (not_not_intro hrange),
    unpackCoils_take hbits hbytes, slice_requestFrame]

theorem writeRegsReply_badShape {q : List Byte} {k : ErrKind} (hp : multiplePayload q (2 * n.toNat) = .error k) :
    writeRegsReply q a n s = .fail k := by
  simp only [writeRegsReply, hp]

theorem writeRegsReply_outOfRange {q p : List Byte} (hp : multiplePayload q (2 * n.toNat) = .ok p)
    (hrange : ¬ inRange s.cfg (.reg .hold) a.toNat n.toNat) : writeRegsReply q a n s = .fail .outOfRangeError := by
  simp only [writeRegsReply, hp, if_pos hrange]

theorem writeRegsReply_writes (hcount : 1 + (byteAt rest 0).toNat ≤ rest.length)
    (hneed : (byteAt rest 0).toNat = 2 * n.toNat) (hrange : inRange s.cfg (.reg .hold) a.toNat n.toNat) :
    writeRegsReply (requestFrame h fc a n rest) a n s = .ok [hi8 a, lo8 a, hi8 n, lo8 n]
      (writeRegs s .hold a.toNat (regsOf ((rest.drop 1).take (2 * n.toNat)))) := by
  have hlen : ((rest.drop 1).take (2 * n.toNat)).length = 2 * n.toNat := by simp; omega
  simp only [writeRegsReply, multiplePayload_ok hcount hneed, if_neg (not_not_intro hrange),
    unpackRegs_ok (show _ % 2 = 0 by rw [hlen]; omega), slice_requestFrame]

end

/-- Settles O43: the handler checks the shape, then the range, and writes the payload's bits in order. -/
theorem writeMultipleCoilsFunctionCode : Obligations.WriteMultipleCoilsFunctionCode := by
  intro h a n rest p s hs
  refine ⟨fun hcount hneed ha hrange => ?_, fun hcount hneed hrange => ?_, fun hshape => ?_⟩
  · have hr : handler .writeMultipleCoils (requestFrame h 0x0F a n rest) a n s = .ok _ _ :=
      writeCoilsReply_writes hcount hneed ⟨ha, hrange⟩
    refine ⟨_, exec_fn_ok .writeMultipleCoils hs hr, completes_of_handler_ok hr _, crc_of_handler_ok hr _,
      fun k hk => ?_, storeKeptOutside_of_handler_ok hr (fun _ _ _ => decide_eq_false) _⟩
    · rw [readBit_complete, readBit_writeBits_add _ _ _ (by simpa using hk)]
      simp [hk]
  · exact exec_fn_fail_onlyCompletes (g := .writeMultipleCoils) hs
      (writeCoilsReply_outOfRange (multiplePayload_ok hcount hneed) hrange)
  · exact exec_fn_fail_onlyCompletes (g := .writeMultipleCoils) hs
      (writeCoilsReply_badShape (multiplePayload_error hshape))

/-- Settles O44: the handler checks the shape, then the range, and writes the payload's registers in order. -/
theorem writeMultipleRegistersFunctionCode : Obligations.WriteMultipleRegistersFunctionCode := by
  intro h a n rest p s hs
  refine ⟨fun hcount hneed ha hrange => ?_, fun hcount hneed hrange => ?_, fun hshape => ?_⟩
  · have hr : handler .writeMultipleRegisters (requestFrame h 0x10 a n rest) a n s = .ok _ _ :=
      writeRegsReply_writes hcount hneed ⟨ha, hrange⟩
    obtain ⟨hlen, hget⟩ := regsOf_length_get n.toNat ((rest.drop 1).take (2 * n.toNat)) (by simp; omega)
    refine ⟨_, exec_fn_ok .writeMultipleRegisters hs hr, completes_of_handler_ok hr _, crc_of_handler_ok hr _,
      fun k hk => ?_, storeKeptOutside_of_handler_ok hr (fun _ _ _ => decide_eq_false) _⟩
    · rw [readReg_complete, readReg_writeRegs_add _ _ _ (by rwa [hlen]), hget k hk,
        byteAt_take (by omega), byteAt_take (by omega), byteAt_drop, byteAt_drop,
        show 1 + (2 * k + 1) = 2 + 2 * k by omega]
  · exact exec_fn_fail_onlyCompletes (g := .writeMultipleRegisters) hs
      (writeRegsReply_outOfRange (multiplePayload_ok hcount hneed) hrange)
  · exact exec_fn_fail_onlyCompletes (g := .writeMultipleRegisters) hs
      (writeRegsReply_badShape (multiplePayload_error hshape))

/-! ### The header is not read (44_function_codes.md R214, 42_mbap_codec.md R172) -/

/-- A handler sees the request's address, quantity and the bytes from offset 12 on alone. -/
theorem handler_requestFrame_header (g : Fn) (h h' : MbapHeader) (fc : Byte) (a n : Half) (rest : List Byte)
    (s : State) : handler g (requestFrame h' fc a n rest) a n s = handler g (requestFrame h fc a n rest) a n s := by
  cases g with
  | readCoils | readDiscreteInputs | readHoldingRegisters | readInputRegisters => rfl
  | writeSingleCoil => simp only [handler, writeCoilReply, slice_requestFrame]
  | writeSingleRegister => simp only [handler, writeRegReply, slice_requestFrame]
  | writeMultipleCoils => simp only [handler, writeCoilsReply, multiplePayload_requestFrame, slice_requestFrame]
  | writeMultipleRegisters => simp only [handler, writeRegsReply, multiplePayload_requestFrame, slice_requestFrame]

/-- Settles O47: both requests get one reply from the handler, and past the header both frames are the same. -/
theorem headerSelectsNothing : Obligations.HeaderSelectsNothing := by
  intro g h h' a n rest p s t hs ht
  have hsame := handler_requestFrame_header g h h' g.byte a n rest s
  cases hr : handler g (requestFrame h g.byte a n rest) a n s with
  | fail k =>
    cases (exec_fn_fail hs hr).symm.trans ht
    exact ⟨_, some k, errorFrame h g.byte, errorFrame h' g.byte, exec_fn_fail hs (hsame.trans hr), by simp, by simp,
      rfl, rfl, by simp [hs], by simp [hs], rfl, rfl⟩
  | ok d s' =>
    cases (exec_fn_ok g hs hr).symm.trans ht
    have hdone (r : Result) : (complete s' none r).completion = some ⟨.srv p, none, r⟩ :=
      hs ▸ (completes_of_handler_ok hr r).completion
    exact ⟨_, none, normalFrame h g.byte d, normalFrame h' g.byte d, exec_fn_ok g hs (hsame.trans hr), by simp,
      by simp, rfl, rfl, hdone _, hdone _, by simp, rfl⟩

end Sys2Proof.Machine
end

section
/-! PROOFS. Which operation reports which error kind (60_exceptions.md R240, R245): each operation's checks give the
kinds it can raise, and a port that may not issue it adds ProtocolError alone. -/

namespace Sys2Proof.Machine

/-! ### The kinds an outcome can report -/

/-- Every error kind the computation can end in meets P. -/
def FailsIn {α : Type} (P : ErrKind → Prop) : Except ErrKind α → Prop
  | .ok _ => True
  | .error k => P k

/-- The operation completes, and an error kind it reports meets P. -/
def ReportsIn (P : ErrKind → Prop) (o : Outcome) : Prop :=
  ∃ s e r, o = .next (complete s e r) ∧ ∀ k, e = some k → P k

section
variable {P : ErrKind → Prop}

theorem failsIn_ite {α : Type} {c : Prop} [Decidable c] {x y : Except ErrKind α} (hx : FailsIn P x)
    (hy : FailsIn P y) : FailsIn P (if c then x else y) := by
  split <;> assumption

theorem reportsIn_ok (s : State) (r : Result) : ReportsIn P (.next (complete s none r)) :=
  ⟨s, none, r, rfl, nofun⟩

theorem reportsIn_error {k : ErrKind} (hk : P k) (s : State) (r : Result) :
    ReportsIn P (.next (complete s (some k) r)) :=
  ⟨s, some k, r, rfl, fun _ h => Option.some.inj h ▸ hk⟩

theorem reportsIn_ite {c : Prop} [Decidable c] {o o' : Outcome} (ho : ReportsIn P o) (ho' : ReportsIn P o') :
    ReportsIn P (if c then o else o') := by
  split <;> assumption

/-- A codec operation reports what its codec function fails with. -/
theorem reportsIn_settle_map {α : Type} {x : Except ErrKind α} (hx : FailsIn P x) (g : α → Result) (s : State) :
    ReportsIn P (settle (x.map g) s) := by
  cases x with
  | ok v => exact reportsIn_ok s (g v)
  | error k => exact reportsIn_error hx s .nothing

/-- The kind in the completion is the one reported. -/
theorem kind_of_reportsIn {o : Outcome} {t : State} {a : Agent} {k : ErrKind} {r : Result} (ho : ReportsIn P o)
    (ht : o = .next t) (hc : t.completion = some ⟨a, some k, r⟩) : P k := by
  obtain ⟨s, e, r', rfl, hP⟩ := ho
  cases ht
  rw [complete_completion] at hc
  cases hc
  exact hP k rfl

end

/-! ### What the codec functions can fail with: each nesting is the order of the checks (60_exceptions.md R246) -/

section
variable {P : ErrKind → Prop}

theorem crcCheck_failsIn (hformat : P .formatError) (hcrc : P .crcError) (f : List Byte) : FailsIn P (crcCheck f) :=
  failsIn_ite hformat (failsIn_ite trivial hcrc)

theorem rtuEncode_failsIn (hprotocol : P .protocolError) (unit fc : Byte) (addr qv : Half) :
    FailsIn P (rtuEncode unit fc addr qv) :=
  failsIn_ite trivial hprotocol

theorem rtuEncodeMultiple_failsIn (hformat : P .formatError) (unit fc : Byte) (addr : Half) (q : Nat)
    (p : List Byte) : FailsIn P (rtuEncodeMultiple unit fc addr q p) :=
  failsIn_ite hformat trivial

theorem rtuDecode_failsIn (hformat : P .formatError) (hcrc : P .crcError) (f : List Byte) : FailsIn P (rtuDecode f) :=
  failsIn_ite hformat (failsIn_ite (failsIn_ite hformat trivial) hcrc)

theorem unpackCoils_failsIn (hformat : P .formatError) (p : List Byte) (n : Nat) : FailsIn P (unpackCoils p n) :=
  failsIn_ite hformat trivial

theorem unpackRegs_failsIn (hformat : P .formatError) (p : List Byte) : FailsIn P (unpackRegs p) :=
  failsIn_ite hformat trivial

theorem mbapDecode_failsIn (hformat : P .formatError) (q : List Byte) : FailsIn P (mbapDecode q) :=
  failsIn_ite hformat trivial

theorem mbapEncode_failsIn (hformat : P .formatError) (q : List Byte) (fc : Byte) (p : List Byte) :
    FailsIn P (mbapEncode q fc p) :=
  failsIn_ite hformat (failsIn_ite hformat trivial)

theorem mbapError_failsIn (hformat : P .formatError) (q : List Byte) (fc : Byte) : FailsIn P (mbapError q fc) :=
  failsIn_ite hformat trivial

end

/-! ### The operations of H -/

/-- R240's table for the operations of H: the kinds each can report on its own port. -/
inductive HostRaises : Instr → ErrKind → Prop
  | crcCheckFormat (f : List Byte) : HostRaises (.crcCheck f) .formatError
  | crcCheckCrc (f : List Byte) : HostRaises (.crcCheck f) .crcError
  | rtuEnc (unit fc : Byte) (addr qv : Half) : HostRaises (.rtuEnc unit fc addr qv) .protocolError
  | rtuEncwc (unit : Byte) (addr : Half) (x : List Bool) : HostRaises (.rtuEncwc unit addr x) .formatError
  | rtuEncwr (unit : Byte) (addr : Half) (x : List Half) : HostRaises (.rtuEncwr unit addr x) .formatError
  | rtuDecFormat (f : List Byte) : HostRaises (.rtuDec f) .formatError
  | rtuDecCrc (f : List Byte) : HostRaises (.rtuDec f) .crcError
  | unpackCoils (p : List Byte) (n : Half) : HostRaises (.unpackCoils p n) .formatError
  | unpackRegs (p : List Byte) : HostRaises (.unpackRegs p) .formatError
  | mbapDec (q : List Byte) : HostRaises (.mbapDec q) .formatError
  | mbapEnc (q : List Byte) (fc : Byte) (p : List Byte) : HostRaises (.mbapEnc q fc p) .formatError
  | mbapErr (q : List Byte) (fc : Byte) : HostRaises (.mbapErr q fc) .formatError
  | storeGet (b : Bank) (i : Half) : HostRaises (.storeGet b i) .outOfRangeError
  | storeSet (i : Half) (v : Element) : HostRaises (.storeSet i v) .outOfRangeError

/-- An operation of H on its own port. -/
theorem exec_host_reportsIn {i : Instr} {s : State} (hs : s.issuer = .host) (hi : isServerInstr i = false) :
    ReportsIn (HostRaises i) (exec i s) := by
  have host {o : Outcome} (ho : ReportsIn (HostRaises i) o) : ReportsIn (HostRaises i) (hostOnly s o) := by
    rwa [hostOnly_host hs]
  cases i with
  | crcInit | crcUpdate | crcRead | crcCompute | crcAppend | packCoils | packRegs => exact host (reportsIn_ok ..)
  | crcCheck f => exact host (reportsIn_settle_map (crcCheck_failsIn (.crcCheckFormat f) (.crcCheckCrc f) f) ..)
  | rtuEnc unit fc addr qv => exact host (reportsIn_settle_map (rtuEncode_failsIn (.rtuEnc unit fc addr qv) ..) ..)
  | rtuEncwc unit addr x => exact host (reportsIn_settle_map (rtuEncodeMultiple_failsIn (.rtuEncwc unit addr x) ..) ..)
  | rtuEncwr unit addr x => exact host (reportsIn_settle_map (rtuEncodeMultiple_failsIn (.rtuEncwr unit addr x) ..) ..)
  | rtuDec f => exact host (reportsIn_settle_map (rtuDecode_failsIn (.rtuDecFormat f) (.rtuDecCrc f) f) ..)
  | unpackCoils p n => exact host (reportsIn_settle_map (unpackCoils_failsIn (.unpackCoils p n) ..) ..)
  | unpackRegs p => exact host (reportsIn_settle_map (unpackRegs_failsIn (.unpackRegs p) p) ..)
  | mbapDec q => exact host (reportsIn_settle_map (mbapDecode_failsIn (.mbapDec q) q) ..)
  | mbapEnc q fc p => exact host (reportsIn_settle_map (mbapEncode_failsIn (.mbapEnc q fc p) ..) ..)
  | mbapErr q fc => exact host (reportsIn_settle_map (mbapError_failsIn (.mbapErr q fc) ..) ..)
  | storeGet b k => exact host (reportsIn_ite (reportsIn_ok ..) (reportsIn_error (.storeGet b k) ..))
  | storeSet k v => exact host (reportsIn_ite (reportsIn_ok ..) (reportsIn_error (.storeSet k v) ..))
  | srvTx | readCoils | readDiscreteInputs | readHoldingRegisters | readInputRegisters | writeSingleCoil
  | writeSingleRegister | writeMultipleCoils | writeMultipleRegisters => cases hi

/-! ### The operations of a server port -/

/-- R240's table for SRV.TX and the function codes it carries. -/
def ServerRaises (k : ErrKind) : Prop := k = .formatError ∨ k = .outOfRangeError ∨ k = .protocolError

/-- The instructions of a server port are SRV.TX and those of the function codes. -/
theorem srvTx_or_fn_of_isServerInstr {i : Instr} (hi : isServerInstr i = true) :
    (∃ q, i = .srvTx q) ∨ ∃ (g : Fn) (h : MbapHeader) (a n : Half) (rest : List Byte), i = g.instr h a n rest := by
  cases i with
  | srvTx q => exact .inl ⟨q, rfl⟩
  | readCoils h a n rest => exact .inr ⟨.readCoils, h, a, n, rest, rfl⟩
  | readDiscreteInputs h a n rest => exact .inr ⟨.readDiscreteInputs, h, a, n, rest, rfl⟩
  | readHoldingRegisters h a n rest => exact .inr ⟨.readHoldingRegisters, h, a, n, rest, rfl⟩
  | readInputRegisters h a n rest => exact .inr ⟨.readInputRegisters, h, a, n, rest, rfl⟩
  | writeSingleCoil h a n rest => exact .inr ⟨.writeSingleCoil, h, a, n, rest, rfl⟩
  | writeSingleRegister h a n rest => exact .inr ⟨.writeSingleRegister, h, a, n, rest, rfl⟩
  | writeMultipleCoils h a n rest => exact .inr ⟨.writeMultipleCoils, h, a, n, rest, rfl⟩
  | writeMultipleRegisters h a n rest => exact .inr ⟨.writeMultipleRegisters, h, a, n, rest, rfl⟩
  | _ => cases hi

/-- On H a server port's operation is a ProtocolError, which its table lists too. -/
theorem reportsIn_serverOnly {s : State} {o : Outcome} (ho : ReportsIn ServerRaises o) :
    ReportsIn ServerRaises (serverOnly s o) := by
  cases hs : s.issuer with
  | host =>
    rw [serverOnly_host hs]
    exact reportsIn_error (.inr (.inr rfl)) ..
  | srv p => rwa [serverOnly_srv hs]

/-- The end of a transaction after its handler. -/
theorem reportsIn_conclude (g : Fn) (q q' : List Byte) (fc : Byte) (a n : Half) (s : State) :
    ReportsIn ServerRaises (conclude q fc (handler g q' a n s) s) := by
  cases hr : handler g q' a n s with
  | ok d s' => exact reportsIn_ok ..
  | fail k => exact reportsIn_error ((handler_fail hr).imp_right .inl) ..

/-- SRV.TX, in the order of 44_function_codes.md R211: a short request, one below 12 bytes, an illegal function
code, a handler. -/
theorem execSrvTx_reportsIn (q : List Byte) (s : State) : ReportsIn ServerRaises (execSrvTx q s) := by
  refine reportsIn_serverOnly (reportsIn_ite (reportsIn_error (.inl rfl) ..) ?_)
  by_cases hl : q.length < 12
  · rw [mbapDecode_short hl]
    exact reportsIn_error (.inl rfl) ..
  · rw [mbapDecode_ok (by omega)]
    dsimp only
    cases fnOf (byteAt q 7) with
    | none => exact reportsIn_error (.inr (.inr rfl)) ..
    | some g => exact reportsIn_conclude ..

/-- An operation of a server port, on whatever port it stands. -/
theorem exec_server_reportsIn {i : Instr} (hi : isServerInstr i = true) (s : State) :
    ReportsIn ServerRaises (exec i s) := by
  obtain ⟨q, rfl⟩ | ⟨g, h, a, n, rest, rfl⟩ := srvTx_or_fn_of_isServerInstr hi
  · exact execSrvTx_reportsIn q s
  · rw [exec_fn]
    exact reportsIn_serverOnly (reportsIn_conclude ..)

/-- An operation of H on a server port. -/
theorem exec_host_on_srv_reportsIn {i : Instr} {s : State} {p : Nat} (hs : s.issuer = .srv p)
    (hi : isServerInstr i = false) : ReportsIn (· = .protocolError) (exec i s) := by
  rw [exec_foreign i s (.inr ⟨hi, p, hs⟩)]
  exact reportsIn_error (P := (· = .protocolError)) rfl ..

/-- Settles O56: the operation is a server port's, or H's on its own port, or H's on a server port. -/
theorem errorKindsHaveTheirOperations : Obligations.ErrorKindsHaveTheirOperations := by
  intro i s t k r ht hc
  cases hi : isServerInstr i with
  | true => obtain rfl | rfl | rfl := kind_of_reportsIn (exec_server_reportsIn hi s) ht hc <;> simp
  | false =>
    cases hs : s.issuer with
    | host => cases kind_of_reportsIn (exec_host_reportsIn hs hi) ht hc <;> simp
    | srv p =>
      obtain rfl := kind_of_reportsIn (exec_host_on_srv_reportsIn hs hi) ht hc
      simp

end Sys2Proof.Machine
end

section
/-! PROOFS. The reset event (70_reset_and_hazards.md R270): the reset state of a configuration reads as the rule says,
and a step that takes a reset leads there with only the inputs still to come added. -/

namespace Sys2Proof.Machine

/-! ### What the reset state reads -/

theorem resetWith_statusOf {c : Config} {a : Agent} (ha : hasAgent c a = true) :
    (State.resetWith c).statusOf a = some 0 := by
  cases a with
  | host => rfl
  | srv p =>
    have hp : p < c.numSrv := of_decide_eq_true ha
    simp [State.statusOf, hp]

/-- No bank lists an element after reset, so a read is INIT. -/
@[simp] theorem readBit_resetWith (c : Config) (b : BitBank) (i : Nat) :
    readBit (State.resetWith c) b i = initBit c b i := by cases b <;> rfl

@[simp] theorem readReg_resetWith (c : Config) (b : RegBank) (i : Nat) :
    readReg (State.resetWith c) b i = initReg c b i := by cases b <;> rfl

/-- A reset in front of the inputs is taken in one step. -/
theorem step_reset {s : State} {rest : List Input} (hp : s.pending = .reset :: rest) :
    step s = .next { State.resetWith s.cfg with pending := rest } := by simp [step, hp, takeReset]

/-- Settles O50: the state a reset leads to differs from the reset state in its inputs alone, which CRC, STATUS and the
banks do not read. -/
theorem resetSetsWholeState : Obligations.ResetSetsWholeState := by
  constructor
  · intro s rest hp
    refine ⟨_, step_reset hp, rfl, fun a ha => ?status, fun b i => ?bits, fun b i => ?regs, rfl⟩
    case status => exact (statusOf_congr (State.resetWith s.cfg) _ rfl rfl a).trans (resetWith_statusOf ha)
    case bits => exact (readBit_congr rfl rfl b i).trans (readBit_resetWith s.cfg b i)
    case regs => exact (readReg_congr rfl rfl b i).trans (readReg_resetWith s.cfg b i)
  · exact fun c => ⟨rfl, fun _ => resetWith_statusOf, readBit_resetWith c, readReg_resetWith c⟩

end Sys2Proof.Machine
end

section
/-! PROOFS. The decoder and the encoder (30_encoding.md): each undoes the other, for the operations of H line by line
and for a server port's through the request frame, and the commands that R100, R85 and R105 write out. -/

namespace Sys2Proof.Machine

/-! ### SRV.TX and the frames it carries (30_encoding.md R85, R93) -/

theorem decode_frameCommand (q : List Byte) :
    decode (frameCommand q) = .ok ((decodeFrame q).getD (.srvTx q)) :=
  decode_of_selector (o := .srvTx) rfl

theorem decode_frameCommand_requestFrame (g : Fn) (h : MbapHeader) (a n : Half) (rest : List Byte) :
    decode (frameCommand (requestFrame h g.byte a n rest)) = .ok (g.instr h a n rest) := by
  rw [decode_frameCommand, decodeFrame_requestFrame, Option.getD_some]

/-- A frame that is no request of a legal function code stays SRV.TX's. -/
theorem decode_frameCommand_srvTx {q : List Byte} (hq : isFunctionRequest q = false) :
    decode (frameCommand q) = .ok (.srvTx q) := by
  rw [decode_frameCommand, decodeFrame_of_not_request hq, Option.getD_none]

theorem encode_instr (g : Fn) (h : MbapHeader) (a n : Half) (rest : List Byte) :
    encode (g.instr h a n rest) = frameCommand (requestFrame h g.byte a n rest) := by
  cases g <;> rfl

/-- A request with a legal function code is the frame of its own fields. -/
theorem exists_requestFrame {q : List Byte} {g : Fn} (hl : 12 ≤ q.length) (hg : fnOf (byteAt q 7) = some g) :
    ∃ h a n rest, q = requestFrame h g.byte a n rest :=
  ⟨_, _, _, _, byte_of_fnOf hg ▸ (requestFrame_headerOf q hl).symm⟩

/-- A frame that carries a function-code instruction is the request frame of that instruction's fields. -/
theorem requestFrame_of_decodeFrame {q : List Byte} {i : Instr} (hi : decodeFrame q = some i) :
    ∃ (g : Fn) (h : MbapHeader) (a n : Half) (rest : List Byte),
      q = requestFrame h g.byte a n rest ∧ i = g.instr h a n rest := by
  have hl : ¬ q.length < 12 := fun hl => by simp [decodeFrame, hl] at hi
  cases hg : fnOf (byteAt q 7) with
  | none => simp [decodeFrame, hg] at hi
  | some g =>
    obtain ⟨h, a, n, rest, rfl⟩ := exists_requestFrame (not_lt.mp hl) hg
    rw [decodeFrame_requestFrame] at hi
    exact ⟨g, h, a, n, rest, rfl, (Option.some.inj hi).symm⟩

/-- Whichever instruction a frame decodes to, encoding it gives back SRV.TX with the very frame. -/
theorem encode_of_frame (q : List Byte) : encode ((decodeFrame q).getD (.srvTx q)) = frameCommand q := by
  cases hi : decodeFrame q with
  | none => rfl
  | some i =>
    obtain ⟨g, h, a, n, rest, rfl, rfl⟩ := requestFrame_of_decodeFrame hi
    exact encode_instr g h a n rest

/-! ### Decode after encode -/

/-- An operation of H reads back the operand lines it was written to. -/
theorem decode_encode_host {i : Instr} (hi : isServerInstr i = false) : decode (encode i) = .ok i := by
  cases i with
  | storeGet b k => exact decode_storeGet rfl rfl
  | storeSet k v =>
    cases v with
    | bit b v => exact decode_storeSet (b := .bit b) rfl rfl
    | reg b v => exact decode_storeSet (b := .reg b) rfl rfl
  | srvTx | readCoils | readDiscreteInputs | readHoldingRegisters | readInputRegisters | writeSingleCoil
  | writeSingleRegister | writeMultipleCoils | writeMultipleRegisters => cases hi
  | _ => rfl

/-- Settles O5: an operation of H decodes line by line, a function code by its request frame, and a well-formed SRV.TX
carries no frame of a legal function code. -/
theorem decodeOfEncodeIsIdentity : Obligations.DecodeOfEncodeIsIdentity := by
  intro i hw
  cases hi : isServerInstr i with
  | false => exact decode_encode_host hi
  | true =>
    obtain ⟨q, rfl⟩ | ⟨g, h, a, n, rest, rfl⟩ := srvTx_or_fn_of_isServerInstr hi
    · exact decode_frameCommand_srvTx (by simpa [Instr.wf] using hw)
    · rw [encode_instr, decode_frameCommand_requestFrame]

/-! ### Encode after decode -/

/-- What a selector reads from a command encodes to that selector. -/
theorem encode_instr_op (o : Selector) (c : Command) : (encode (o.instr c)).op = o.byte := by
  cases o with
  | srvTx => exact congrArg Command.op (encode_of_frame c.bytes)
  | storeSet =>
    rw [Selector.instr]
    cases bankOf c.b <;> rfl
  | _ => rfl

/-- What decodes is some selector's reading of the command. -/
theorem selector_of_decode {c : Command} {i : Instr} (hd : decode c = .ok i) :
    ∃ o : Selector, c.op = o.byte ∧ i = o.instr c := by
  unfold decode at hd
  split at hd
  · next o ho => exact ⟨o, (byte_of_selectorOf ho).symm, (Except.ok.inj hd).symm⟩
  · cases hd

/-- Settles O6: the decoded instruction is its selector's reading of the command, and SRV.TX's readings encode to the
frame. -/
theorem decodedInstructionKeepsItsCommand : Obligations.DecodedInstructionKeepsItsCommand := by
  intro c i hd
  have hw : i.wf = true := wf_of_decode hd
  obtain ⟨o, hop, rfl⟩ := selector_of_decode hd
  refine ⟨hw, ?_, fun hsrv => ?_, decodeOfEncodeIsIdentity _ hw⟩
  · rw [encode_instr_op, hop]
  · have hread : o.instr c = (decodeFrame c.bytes).getD (.srvTx c.bytes) :=
      Except.ok.inj (hd.symm.trans (decode_of_selector (o := .srvTx) hsrv))
    rw [hread, encode_of_frame]
    rfl

/-! ### Commands written out (30_encoding.md R85, R100, R105) -/

/-- Settles O4: five commands are read line by line; the frames are one of an illegal function code and the request
frame of its fields. -/
theorem sampleCommandsDecode : Obligations.SampleCommandsDecode :=
  ⟨decode_of_selector (o := .crcUpdate) rfl, decode_of_selector (o := .rtuEnc) rfl,
    decode_of_selector (o := .mbapEnc) rfl, decode_storeSet (b := .reg .inpt) rfl rfl,
    decode_frameCommand_srvTx (by decide),
    decode_frameCommand_requestFrame .writeMultipleRegisters ⟨0x1234, 0x0000, 0x0006, 0x01⟩ 0x270E 0x0001 _⟩

/-- Settles O7: the expansions are the readings of RTU.ENC, RTU.ENCWC and RTU.ENCWR. -/
theorem pseudoOperationsExpandToEncoders : Obligations.PseudoOperationsExpandToEncoders := by
  intro unit addr qv x y
  have single (fc : Byte) (v : Half) :
      decode { op := 0x10, unit := unit, fc := fc, addr := addr, qv := v } = .ok (.rtuEnc unit fc addr v) :=
    decode_of_selector (o := .rtuEnc) rfl
  exact ⟨single 0x01 qv, single 0x02 qv, single 0x03 qv, single 0x04 qv, single 0x05 0xFF00, single 0x05 0x0000,
    single 0x06 qv, decode_of_selector (o := .rtuEncwc) rfl, decode_of_selector (o := .rtuEncwr) rfl⟩

end Sys2Proof.Machine
end

section
/-! PROOFS. SRV.TX of a request with a legal function code, whole (44_function_codes.md R211): it is its function-code
instruction, and it succeeds exactly on the requests its handler accepts. -/

namespace Sys2Proof.Machine

/-- SRV.TX of a request frame is the function-code instruction of its fields, on every port. -/
theorem exec_srvTx_requestFrame (g : Fn) (h : MbapHeader) (a n : Half) (rest : List Byte) (s : State) :
    exec (.srvTx (requestFrame h g.byte a n rest)) s = exec (g.instr h a n rest) s := by
  have h7 : byteAt (requestFrame h g.byte a n rest) 7 = g.byte := rfl
  rw [exec_fn]
  cases hs : s.issuer with
  | host => rw [serverOnly_host hs, exec_foreign _ _ (.inl ⟨rfl, hs⟩)]
  | srv p =>
    rw [exec_srvTx_legal hs (by simp) (h7 ▸ fnOf_byte g), serverOnly_srv hs, h7]
    simp [requestFrame]

theorem requestFc_instr (g : Fn) (h : MbapHeader) (a n : Half) (rest : List Byte) :
    requestFc (g.instr h a n rest) = some g.byte := by
  cases g <;> rfl

theorem instr_ne_srvTx (g : Fn) (h : MbapHeader) (a n : Half) (rest q : List Byte) :
    g.instr h a n rest ≠ .srvTx q := by
  cases g <;> nofun

/-- Settles O37: a request with a legal function code is the request frame of its fields. -/
theorem srvTxIsItsFunctionInstruction : Obligations.SrvTxIsItsFunctionInstruction := by
  intro q hl hfc
  obtain ⟨g, hg⟩ := Option.isSome_iff_exists.mp ((fnOf_isSome_iff _).mpr hfc)
  obtain ⟨h, a, n, rest, rfl⟩ := exists_requestFrame hl hg
  exact ⟨g.instr h a n rest, decode_frameCommand_requestFrame g h a n rest, requestFc_instr ..,
    instr_ne_srvTx g h a n rest _, congrArg Command.bytes (encode_instr ..), fun s => (exec_srvTx_requestFrame ..).symm⟩

/-! ### When a handler answers (44_function_codes.md R220 to R228) -/

/-- The handler answers where P holds, and fails where it does not. -/
def AnswersExactly (P : Prop) (r : Reply) : Prop :=
  (P → ∃ d s', r = .ok d s') ∧ (¬ P → ∃ k, r = .fail k)

section
variable (h : MbapHeader) (fc : Byte) (a n : Half) (rest : List Byte) (s : State)

theorem readBitsReply_answers (b : BitBank) (i q : Nat) :
    AnswersExactly (inRange s.cfg (.bit b) i q ∧ q ≤ 2040) (readBitsReply b i q s) :=
  ⟨fun ⟨hrange, hq⟩ => ⟨_, _, readBitsReply_ok hrange hq⟩, fun hbad => ⟨_, readBitsReply_fail hbad⟩⟩

theorem readRegsReply_answers (b : RegBank) (i q : Nat) :
    AnswersExactly (inRange s.cfg (.reg b) i q ∧ q ≤ 127) (readRegsReply b i q s) :=
  ⟨fun ⟨hrange, hq⟩ => ⟨_, _, readRegsReply_ok hrange (by omega)⟩, fun hbad => ⟨_, readRegsReply_fail hbad⟩⟩

theorem writeCoilReply_answers :
    AnswersExactly ((n = 0xFF00 ∨ n = 0x0000) ∧ inRange s.cfg (.bit .coil) a.toNat 1)
      (writeCoilReply (requestFrame h fc a n rest) a n s) := by
  refine ⟨fun ⟨hv, ha, _⟩ => ⟨_, _, writeCoilReply_ok (coilValue_ok hv) ha⟩, fun hbad => ?_⟩
  by_cases hv : n = 0xFF00 ∨ n = 0x0000
  · have ha : s.cfg.cap (.bit .coil) ≤ a.toNat := by
      rw [← not_lt, ← inRange_one]
      exact fun ha => hbad ⟨hv, ha⟩
    exact ⟨_, writeCoilReply_outOfRange (coilValue_ok hv) ha _⟩
  · obtain ⟨hon, hoff⟩ := not_or.mp hv
    exact ⟨_, writeCoilReply_badValue (coilValue_error hon hoff) _⟩

theorem writeRegReply_answers :
    AnswersExactly (inRange s.cfg (.reg .hold) a.toNat 1) (writeRegReply (requestFrame h fc a n rest) a n s) :=
  ⟨fun ⟨ha, _⟩ => ⟨_, _, writeRegReply_ok ha⟩,
    fun hbad => ⟨_, writeRegReply_outOfRange (not_lt.mp (mt (inRange_one ..).mpr hbad)) _⟩⟩

theorem writeCoilsReply_answers :
    AnswersExactly ((1 + (byteAt rest 0).toNat ≤ rest.length ∧ (byteAt rest 0).toNat = ceil8 n.toNat) ∧
        inRange s.cfg (.bit .coil) a.toNat n.toNat)
      (writeCoilsReply (requestFrame h fc a n rest) a n s) := by
  refine ⟨fun ⟨⟨hcount, hneed⟩, hrange⟩ => ⟨_, _, writeCoilsReply_writes hcount hneed hrange⟩, fun hbad => ?_⟩
  by_cases hshape : 1 + (byteAt rest 0).toNat ≤ rest.length ∧ (byteAt rest 0).toNat = ceil8 n.toNat
  · have hp := multiplePayload_ok (h := h) (fc := fc) (a := a) (n := n) hshape.1 hshape.2
    exact ⟨_, writeCoilsReply_outOfRange hp fun hrange => hbad ⟨hshape, hrange⟩⟩
  · exact ⟨_, writeCoilsReply_badShape (multiplePayload_error hshape)⟩

theorem writeRegsReply_answers :
    AnswersExactly ((1 + (byteAt rest 0).toNat ≤ rest.length ∧ (byteAt rest 0).toNat = 2 * n.toNat) ∧
        inRange s.cfg (.reg .hold) a.toNat n.toNat)
      (writeRegsReply (requestFrame h fc a n rest) a n s) := by
  refine ⟨fun ⟨⟨hcount, hneed⟩, hrange⟩ => ⟨_, _, writeRegsReply_writes hcount hneed hrange⟩, fun hbad => ?_⟩
  by_cases hshape : 1 + (byteAt rest 0).toNat ≤ rest.length ∧ (byteAt rest 0).toNat = 2 * n.toNat
  · have hp := multiplePayload_ok (h := h) (fc := fc) (a := a) (n := n) hshape.1 hshape.2
    exact ⟨_, writeRegsReply_outOfRange hp fun hrange => hbad ⟨hshape, hrange⟩⟩
  · exact ⟨_, writeRegsReply_badShape (multiplePayload_error hshape)⟩

end

/-- Settles O38: the transaction ends as its handler replies, and each handler answers exactly the acceptable
requests. -/
theorem srvTxSucceedsExactlyOnAcceptableRequests : Obligations.SrvTxSucceedsExactlyOnAcceptableRequests := by
  intro g h a n rest p s hs within holds acceptable
  have hreply : AnswersExactly acceptable (handler g (requestFrame h g.byte a n rest) a n s) := by
    cases g with
    | readCoils | readDiscreteInputs => exact readBitsReply_answers ..
    | readHoldingRegisters | readInputRegisters => exact readRegsReply_answers ..
    | writeSingleCoil => exact writeCoilReply_answers ..
    | writeSingleRegister => exact writeRegReply_answers ..
    | writeMultipleCoils => exact writeCoilsReply_answers ..
    | writeMultipleRegisters => exact writeRegsReply_answers ..
  rw [exec_srvTx_requestFrame]
  refine ⟨fun hgood => ?_, fun hbad => ?_⟩
  · obtain ⟨d, s', hr⟩ := hreply.1 hgood
    exact ⟨_, d, exec_fn_ok g hs hr, completes_of_handler_ok hr _, crc_of_handler_ok hr _⟩
  · obtain ⟨k, hr⟩ := hreply.2 hbad
    obtain ⟨t, ht, hdone⟩ := exec_fn_fail_onlyCompletes hs hr
    exact ⟨t, k, ht, hdone⟩

end Sys2Proof.Machine
end

section
/-! PROOFS. The canonical form of the data store (43_data_store.md section 2): the reads below the capacities
determine it. -/

namespace Sys2Proof.Machine

/-! ### Cells in canonical form -/

section
variable {α : Type} {cap : Nat} {dflt : Nat → α} {l : Cells α}

/-- An index reads as its default or as a listed pair. -/
theorem cellGet_eq_dflt_or_mem (dflt : Nat → α) (l : Cells α) (i : Nat) :
    cellGet dflt l i = dflt i ∨ (i, cellGet dflt l i) ∈ l := by
  induction l with
  | nil => exact .inl rfl
  | cons p l ih =>
    obtain ⟨k, w⟩ := p
    by_cases hik : i = k
    · simp [cellGet, hik]
    · simpa [cellGet, hik] using ih

/-- A listed pair is what its index reads as, the indices being distinct. -/
theorem cellGet_of_mem (hl : l.Pairwise (fun p q => p.1 < q.1)) {p : Nat × α} (hp : p ∈ l) :
    cellGet dflt l p.1 = p.2 := by
  induction l with
  | nil => cases hp
  | cons q l ih =>
    obtain ⟨hq, hl⟩ := List.pairwise_cons.mp hl
    rcases List.mem_cons.mp hp with rfl | hp
    · exact if_pos rfl
    · exact (if_neg (hq p hp).ne').trans (ih hl hp)

variable [DecidableEq α]

/-- The pairs in canonical form are those of the indices that do not read as the default. -/
theorem mem_iff_cellGet (h : cellsWf cap dflt l) (p : Nat × α) :
    p ∈ l ↔ cellGet dflt l p.1 = p.2 ∧ p.2 ≠ dflt p.1 := by
  obtain ⟨hsorted, hlisted⟩ := h
  refine ⟨fun hp => ⟨cellGet_of_mem hsorted hp, (hlisted p hp).2⟩, fun ⟨hget, hne⟩ => ?_⟩
  have hmem := (cellGet_eq_dflt_or_mem dflt l p.1).resolve_left (hget.symm ▸ hne)
  rwa [hget] at hmem

/-- An index from the capacity on reads as its default. -/
theorem cellGet_of_cap_le (h : cellsWf cap dflt l) {i : Nat} (hi : cap ≤ i) : cellGet dflt l i = dflt i :=
  (cellGet_eq_dflt_or_mem dflt l i).resolve_right fun hmem => not_lt.mpr hi (h.2 _ hmem).1

/-- Cells in canonical form that read the same below the capacity are the same list. -/
theorem cells_eq_of_cellGet_eq {l' : Cells α} (h : cellsWf cap dflt l) (h' : cellsWf cap dflt l')
    (hget : ∀ i < cap, cellGet dflt l i = cellGet dflt l' i) : l = l' := by
  have hall (i : Nat) : cellGet dflt l i = cellGet dflt l' i := by
    rcases lt_or_ge i cap with hi | hi
    · exact hget i hi
    · rw [cellGet_of_cap_le h hi, cellGet_of_cap_le h' hi]
  have hirrefl : Std.Irrefl fun p q : Nat × α => p.1 < q.1 := ⟨fun p => lt_irrefl p.1⟩
  have hantisymm : Std.Antisymm fun p q : Nat × α => p.1 < q.1 := ⟨fun _ _ hpq hqp => absurd hqp (lt_asymm hpq)⟩
  refine h.1.eq_of_mem_iff h'.1 fun p => ?_
  rw [mem_iff_cellGet h, mem_iff_cellGet h', hall]

end

/-! ### The data store -/

theorem memory_ext {m m' : Memory} (hbits : ∀ b, m.bits b = m'.bits b) (hregs : ∀ b, m.regs b = m'.regs b) :
    m = m' := by
  cases m
  cases m'
  rw [Memory.mk.injEq]
  exact ⟨hbits .coil, hbits .disc, hregs .hold, hregs .inpt⟩

theorem cellsWf_bits {c : Config} {m : Memory} (h : m.wf c) (b : BitBank) :
    cellsWf (c.cap (.bit b)) (initBit c b) (m.bits b) := by
  obtain ⟨hcoil, hdisc, -, -⟩ := h
  cases b
  · exact hcoil
  · exact hdisc

theorem cellsWf_regs {c : Config} {m : Memory} (h : m.wf c) (b : RegBank) :
    cellsWf (c.cap (.reg b)) (initReg c b) (m.regs b) := by
  obtain ⟨-, -, hhold, hinpt⟩ := h
  cases b
  · exact hhold
  · exact hinpt

/-- Stores in canonical form that read the same below the capacities are the same data. -/
theorem mem_eq_of_reads {s t : State} (hcfg : t.cfg = s.cfg) (hs : s.mem.wf s.cfg) (ht : t.mem.wf s.cfg)
    (hread : ∀ b i, i < s.cfg.cap b → readElement s b i = readElement t b i) : s.mem = t.mem := by
  refine memory_ext (fun b => ?_) fun b => ?_
  · refine cells_eq_of_cellGet_eq (cellsWf_bits hs b) (cellsWf_bits ht b) fun i hi => ?_
    simpa [readElement, readBit, hcfg] using hread (.bit b) i hi
  · refine cells_eq_of_cellGet_eq (cellsWf_regs hs b) (cellsWf_regs ht b) fun i hi => ?_
    simpa [readElement, readReg, hcfg] using hread (.reg b) i hi

/-- Writing the value an element holds leaves a store in canonical form the same data. -/
theorem writeElement_readElement_mem {s : State} (h : s.mem.wf s.cfg) {b : Bank} {i : Nat} (hi : i < s.cfg.cap b) :
    (writeElement s i (readElement s b i)).mem = s.mem :=
  (mem_eq_of_reads (writeElement_cfg ..) h (wf_writeElement h i _ (by rwa [readElement_bank]))
    fun b' j _ => (readElement_writeElement_readElement s b b' i j).symm).symm

/-- Settles O34: the reads determine the canonical form, and STORE.SET of the value held changes no read. -/
theorem canonicalStoreIsItsReads : Obligations.CanonicalStoreIsItsReads := by
  refine ⟨fun s t hcfg hs ht hread => ?_, fun s t b i h hs hi ht => ?_⟩
  · exact mem_eq_of_reads hcfg.symm hs (hcfg ▸ ht) hread
  · cases (exec_storeSet_ok hs (v := readElement s b i.toNat) (by rwa [readElement_bank])).symm.trans ht
    rw [complete_mem, writeElement_readElement_mem h hi]

end Sys2Proof.Machine
end

section
/-! PROOFS. One step of the block (10_state.md section 4): what a step can be, that it stops only on a port that does
not exist, and that it keeps the invariant. -/

namespace Sys2Proof.Machine

/-! ### What a step can be -/

theorem step_of_nothing_pending {s : State} (hp : s.pending = []) : step s = .next s := by
  simp [step, hp, idle]

theorem step_of_missing_port {s : State} {a : Agent} {c : Command} {rest : List Input}
    (hp : s.pending = .op a c :: rest) (ha : hasAgent s.cfg a = false) : step s = .fault (.noSuchAgent a) := by
  simp [step, hp, ha]

/-- A step that does not meet an operation on a missing port answers a next state. -/
theorem step_next_or_missing_port (s : State) : (∃ t, step s = .next t) ∨
    ∃ a c rest, s.pending = .op a c :: rest ∧ hasAgent s.cfg a = false ∧ step s = .fault (.noSuchAgent a) := by
  cases hp : s.pending with
  | nil => exact .inl ⟨s, step_of_nothing_pending hp⟩
  | cons x rest =>
    cases x with
    | reset => exact .inl ⟨_, step_reset hp⟩
    | op a c =>
      cases ha : hasAgent s.cfg a with
      | false => exact .inr ⟨a, c, rest, rfl, ha, step_of_missing_port hp ha⟩
      | true =>
        obtain ⟨t, -, -, ht, -⟩ := step_op hp ha
        exact .inl ⟨t, ht⟩

/-- Settles O1: `accept` takes the operation and makes its agent the issuer. -/
theorem stepRunsDecodedOperation : Obligations.StepRunsDecodedOperation :=
  fun _ _ _ _ _ hp ha hd => step_of_decode_ok hp ha hd

/-- Settles O3: a step answers a next state, or it meets an operation on a missing port and faults. -/
theorem stepStopsOnlyOnMissingPort : Obligations.StepStopsOnlyOnMissingPort := by
  refine fun s => ⟨fun f => ⟨fun hf => ?_, ?_⟩, fun r hr => ?_⟩
  · obtain ⟨t, ht⟩ | ⟨a, c, rest, hp, ha, hs⟩ := step_next_or_missing_port s
    · cases ht.symm.trans hf
    · cases hs.symm.trans hf
      exact ⟨a, c, rest, hp, ha, rfl⟩
  · rintro ⟨a, c, rest, hp, ha, rfl⟩
    exact step_of_missing_port hp ha
  · obtain ⟨t, ht⟩ | ⟨a, c, rest, -, -, hs⟩ := step_next_or_missing_port s
    · cases ht.symm.trans hr
    · cases hs.symm.trans hr

/-! ### STATUS stays legal (10_state.md R23) -/

/-- Every code an operation writes is legal, TimeoutError's being reserved (60_exceptions.md R245). -/
theorem statusLegal_statusCode {e : Option ErrKind} (he : e ≠ some .timeoutError) : statusLegal (statusCode e) := by
  cases e with
  | none => decide
  | some k =>
    cases k with
    | timeoutError => exact absurd rfl he
    | formatError | outOfRangeError | protocolError | crcError => decide

theorem setStatus_statusS_length (s : State) (a : Agent) (v : Byte) :
    (s.setStatus a v).statusS.length = s.statusS.length := by
  cases a with
  | host => rfl
  | srv p => exact List.length_set

theorem statusLegal_setStatus_statusH {s : State} (h : statusLegal s.statusH) (a : Agent) {v : Byte}
    (hv : statusLegal v) : statusLegal (s.setStatus a v).statusH := by
  cases a with
  | host => exact hv
  | srv p => exact h

theorem statusLegal_setStatus_statusS {s : State} (h : ∀ st ∈ s.statusS, statusLegal st) (a : Agent) {v : Byte}
    (hv : statusLegal v) : ∀ st ∈ (s.setStatus a v).statusS, statusLegal st := by
  cases a with
  | host => exact h
  | srv p =>
    intro st hst
    rcases List.mem_or_eq_of_mem_set hst with hst | rfl
    · exact h st hst
    · exact hv

/-- An agent that exists has a STATUS. -/
theorem statusOf_isSome {s : State} (hlen : s.statusS.length = s.cfg.numSrv) {a : Agent}
    (ha : hasAgent s.cfg a = true) : (s.statusOf a).isSome = true := by
  cases a with
  | host => rfl
  | srv p =>
    have hp : p < s.statusS.length := hlen ▸ of_decide_eq_true ha
    simp [State.statusOf, hp]

/-! ### The invariant -/

/-- The invariant speaks of no input, so the reset state has it whatever is still to come. -/
theorem inv_resetWith {c : Config} (h : configWf c) (l : List Input) :
    Inv { State.resetWith c with pending := l } :=
  have hzero : statusLegal 0 := by decide
  ⟨h, wf_resetWith c, List.length_replicate, hzero, fun _ hst => List.eq_of_mem_replicate hst ▸ hzero, rfl, nofun⟩

/-- Settles O49: no bank lists an element and every STATUS is 0. -/
theorem resetSatisfiesInvariant : Obligations.ResetSatisfiesInvariant :=
  ⟨fun _ h => inv_resetWith h [], inv_resetWith (by decide) []⟩

section
variable {s : State} (h : Inv s)
include h

/-- Taking an operation of an agent that exists. -/
theorem inv_accept {a : Agent} (ha : hasAgent s.cfg a = true) (rest : List Input) : Inv (accept s a rest) := by
  obtain ⟨hcfg, hmem, hlen, hH, hS, -, hdone⟩ := h
  exact ⟨hcfg, hmem, hlen, hH, hS, ha, fun c hc => by simpa using hdone c hc⟩

/-- Changing CRC and the store alone, the canonical form kept. -/
theorem inv_of_crc_mem (c : Half) {m : Memory} (hm : m.wf s.cfg) : Inv { s with crc := c, mem := m } := by
  obtain ⟨hcfg, -, hlen, hH, hS, hissuer, hdone⟩ := h
  refine ⟨hcfg, hm, hlen, hH, hS, hissuer, fun d hd => ?_⟩
  obtain ⟨hagent, hcode⟩ := hdone d hd
  exact ⟨hagent, (statusOf_congr s _ rfl rfl d.agent).trans hcode⟩

/-- Every effect of an operation that succeeds is one on CRC, or a write inside the capacity. -/
theorem inv_effect {i : Instr} {s' : State} (hx : Effect i s s') : Inv s' := by
  have ⟨_, hmem, _⟩ := h
  rcases hx with rfl | ⟨-, -, rfl⟩ | ⟨-, d, -, rfl⟩ | ⟨-, k, v, -, hk, rfl⟩ | ⟨-, -, a, x, hx, rfl⟩ |
    ⟨-, -, a, x, hx, rfl⟩
  · exact h
  · exact inv_of_crc_mem h _ hmem
  · exact inv_of_crc_mem h _ hmem
  · cases v with
    | bit b v => exact inv_of_crc_mem h s.crc (wf_writeBit hmem b k.toNat v hk)
    | reg b v => exact inv_of_crc_mem h s.crc (wf_writeReg hmem b k.toNat v hk)
  · exact inv_of_crc_mem h s.crc (wf_writeBits hmem .coil a x hx)
  · exact inv_of_crc_mem h s.crc (wf_writeRegs hmem .hold a x hx)

/-- Completing an operation: STATUS of the issuer is the completion's code. -/
theorem inv_complete {e : Option ErrKind} (he : e ≠ some .timeoutError) (r : Result) : Inv (complete s e r) := by
  obtain ⟨hcfg, hmem, hlen, hH, hS, hissuer, -⟩ := h
  have hcode := statusLegal_statusCode he
  have hstatus : (complete s e r).statusOf s.issuer = some (statusCode e) :=
    (onlyCompletes_complete s e r).status (statusOf_isSome hlen hissuer)
  refine ⟨by rwa [complete_cfg], by rwa [complete_cfg, complete_mem], ?_,
    statusLegal_setStatus_statusH hH s.issuer hcode, statusLegal_setStatus_statusS hS s.issuer hcode,
    by rwa [complete_cfg, complete_issuer], fun c hc => ?_⟩
  · exact (setStatus_statusS_length ..).trans (hlen.trans (congrArg Config.numSrv (complete_cfg ..)).symm)
  · obtain rfl : ⟨s.issuer, e, r⟩ = c := by simpa using hc
    exact ⟨by rwa [complete_cfg], hstatus⟩

/-- Executing an instruction: it completes with an error kind, or after one of the effects. -/
theorem inv_exec {i : Instr} {t : State} (ht : exec i s = .next t) : Inv t := by
  rcases exec_ends i s with ⟨k, r, hk, ho⟩ | ⟨s', r, ho, hx⟩
  · cases ho.symm.trans ht
    exact inv_complete h (by simpa using hk) r
  · cases ho.symm.trans ht
    exact inv_complete (inv_effect h hx) (by simp) r

end

/-- Settles O48: nothing is pending, or the step takes a reset, or an operation, which decodes or does not. -/
theorem stepKeepsInvariant : Obligations.StepKeepsInvariant := by
  intro s t h ht
  cases hp : s.pending with
  | nil =>
    cases (step_of_nothing_pending hp).symm.trans ht
    exact h
  | cons x rest =>
    cases x with
    | reset =>
      cases (step_reset hp).symm.trans ht
      exact inv_resetWith h.1 rest
    | op a c =>
      cases ha : hasAgent s.cfg a with
      | false => cases (step_of_missing_port hp ha).symm.trans ht
      | true =>
        have haccept := inv_accept h ha rest
        cases hd : decode c with
        | ok i => exact inv_exec haccept ((step_of_decode_ok hp ha hd).symm.trans ht)
        | error j =>
          cases (step_of_decode_error hp ha hd).symm.trans ht
          exact inv_complete haccept (by simp) .nothing

end Sys2Proof.Machine
end
